-- ==== Sys2Proof/Word.lean ====
section
/-! DEFINITION. The value types of spec/00_scope.md R8: bytes, words, byte sequences, code points. -/

namespace Sys2Proof

/-- `Byte`: an unsigned integer in [0, 255] (R8). -/
abbrev Byte := BitVec 8

/-- `Word16`: an unsigned integer in [0, 65535] (R8). -/
abbrev Word16 := BitVec 16

/-- `Word32`: an unsigned integer in [0, 2^32 - 1] (R8). -/
abbrev Word32 := BitVec 32

/-- `Bytes`: a finite sequence of bytes, indexed from 0 (R8). -/
abbrev Bytes := List Byte

/-- A code point of `dtext`, an integer in [0, 0x10FFFF] (10_state.md R30). -/
abbrev CodePoint := Fin 0x110000

/-- The text input of a request: a sequence of code points (10_state.md R30). -/
abbrev Text := List CodePoint

end Sys2Proof
end

