-- ==== Sys2Proof/Config.lean ====
section
/-! DEFINITION. The parameters of one block instance (spec/00_scope.md R6): the five constant tables, the text
setting and the buffer bound, with the entry types of the tables; and the values the spec leaves open, as constants
without a body. The default contents of the tables stand in Machine/Roms.lean. -/

namespace Sys2Proof

/-- The width of a frame field, 1 or 2 bytes (42_frame_parser.md R121). -/
inductive Width where
  | one
  | two
  deriving DecidableEq, Repr

/-- The four scale functions (30_encoding.md R67, 42_frame_parser.md R139). -/
inductive ScaleKind where
  | identity
  | tenths
  | hundredths
  | thousandths
  deriving DecidableEq, Repr

/-- A fixed field of the frame: its actual value must equal `value` (R121). -/
structure FixedField where
  off   : Nat
  width : Width
  value : Word16
  deriving DecidableEq, Repr

/-- The record attributes that a field of kind `scaled(k)` fills (R131). -/
inductive ScaledAttr where
  | barometer
  | insideTemp
  | outsideTemp
  | insideHum
  | outsideHum
  | windSpeed
  | windAvg10
  | windAvg2
  | windGust10
  | dewPoint
  | heatIndex
  | windChill
  | thsw
  | uv
  | solar
  | dailyEt
  | minuteInHour
  deriving DecidableEq, Repr

/-- The record attributes that a field of kind `winddir` fills (R131). -/
inductive WindAttr where
  | windDir
  | gustDir
  deriving DecidableEq, Repr

/-- The record attributes that a field of kind `rain` fills (R131). -/
inductive RainAttr where
  | rainRate
  | stormRain
  | dailyRain
  | rain15min
  | rain1h
  | rain24h
  deriving DecidableEq, Repr

/-- What a value field decodes to: its name and its kind (R121) in one. The attribute a name stands for has the
type that R131 gives the kind, so a name and a kind that R131 does not join cannot be written down.
DESIGN CHOICE, safe: log 10. -/
inductive Target where
  | scaled (attr : ScaledAttr) (kind : ScaleKind)
  | winddir (attr : WindAttr)
  | rain (attr : RainAttr)
  | trend
  deriving DecidableEq, Repr

/-- A value field of the frame (R121). The sentinel is compared with the raw unsigned bit pattern (R138). -/
structure ValueField where
  target   : Target
  off      : Nat
  width    : Width
  signed   : Bool
  sentinel : Option Word16
  deriving DecidableEq, Repr

/-- `LAYOUT` (10_state.md R25, 42_frame_parser.md R121). -/
structure Layout where
  fixed  : List FixedField
  values : List ValueField
  deriving DecidableEq, Repr

/-- One entry of `TREND_TABLE`: a trend name and its signed code (R142). Its index is its place in the table. -/
structure TrendEntry where
  name : String
  code : Int
  deriving DecidableEq, Repr

/-- One entry of `CMD_TABLE` (10_state.md R23). Its `id` is its place in the table. -/
structure CmdEntry where
  name        : String
  template    : Bytes
  isComplete  : Bool
  destructive : Bool
  deriving DecidableEq, Repr

/-- One entry of `TOKEN_TABLE` (10_state.md R24). Its `id` is its place in the table. -/
structure TokenEntry where
  name  : String
  bytes : Bytes
  deriving DecidableEq, Repr

/-- `TEXT_HIGH`: how ENC.TEXT encodes code points above 0x7F (00_scope.md R6, 43_command_encoder.md R170). -/
inductive TextHigh where
  | utf8
  | latin1
  | refuse
  deriving DecidableEq, Repr, Inhabited

/-- The parameters of one block instance (00_scope.md R6), fixed for its life and never changed by an operation
(10_state.md R27). -/
structure Config where
  crcTable   : Vector Word16 256
  layout     : Layout
  trendTable : List TrendEntry
  cmdTable   : List CmdEntry
  tokenTable : List TokenEntry
  textHigh   : TextHigh
  maxDin     : Nat
  deriving DecidableEq, Repr

/-- The `TEXT_HIGH` of the block after reset. OPEN in the spec (R6, 92 D18), so no value is chosen: log 2. -/
opaque Config.openTextHigh : TextHigh

/-- `MAX_DIN - 99` of the block after reset. OPEN in the spec but for "at least 99" (R6, R41, 92 D21), so no value is
chosen: log 2. -/
opaque Config.openMaxDinExtra : Nat

/-- The 32-bit result for a count above 2^32 - 1. The spec states no result there: log 9. -/
opaque Config.freeScalar : Nat → Word32

/-- What a read at an offset outside a frame gives, which only a layout that is not well formed can ask for:
log 12. -/
opaque Config.freeByte : Bytes → Nat → Byte

end Sys2Proof
end

