-- ==== Sys2Proof/Machine/Roms.lean ====
section
/-! DEFINITION. The contents of the constant tables: the CRC table of spec/10_state.md R22, the default frame layout
`L2_DEFAULT` (42_frame_parser.md R122 to R124), the default trend codes (R142), the default command and token tables
(43_command_encoder.md R160, R161), and the parameters of the block after reset (10_state.md R33). The tables' contents
are the spec's "from general knowledge" but for the rows it marks as the source's: log 11. -/

namespace Sys2Proof.Machine

/-- One of the eight turns of the generator of 10_state.md R22. -/
def crcGenTurn (c : Word16) : Word16 :=
  if c.getLsbD 15 then (c <<< 1) ^^^ 0x1021 else c <<< 1

/-- `gen(i)` of 10_state.md R22: the byte in bits 15..8, then eight turns. -/
def crcGen (i : Byte) : Word16 :=
  Nat.repeat crcGenTurn 8 (i.setWidth 16 <<< 8)

/-- Rows 0x00 to 0x38 of the table printed in 10_state.md R22. -/
def crcRows0 : List Word16 :=
  [0x0000, 0x1021, 0x2042, 0x3063, 0x4084, 0x50A5, 0x60C6, 0x70E7,
   0x8108, 0x9129, 0xA14A, 0xB16B, 0xC18C, 0xD1AD, 0xE1CE, 0xF1EF,
   0x1231, 0x0210, 0x3273, 0x2252, 0x52B5, 0x4294, 0x72F7, 0x62D6,
   0x9339, 0x8318, 0xB37B, 0xA35A, 0xD3BD, 0xC39C, 0xF3FF, 0xE3DE,
   0x2462, 0x3443, 0x0420, 0x1401, 0x64E6, 0x74C7, 0x44A4, 0x5485,
   0xA56A, 0xB54B, 0x8528, 0x9509, 0xE5EE, 0xF5CF, 0xC5AC, 0xD58D,
   0x3653, 0x2672, 0x1611, 0x0630, 0x76D7, 0x66F6, 0x5695, 0x46B4,
   0xB75B, 0xA77A, 0x9719, 0x8738, 0xF7DF, 0xE7FE, 0xD79D, 0xC7BC]

/-- Rows 0x40 to 0x78 of the table printed in 10_state.md R22. -/
def crcRows1 : List Word16 :=
  [0x48C4, 0x58E5, 0x6886, 0x78A7, 0x0840, 0x1861, 0x2802, 0x3823,
   0xC9CC, 0xD9ED, 0xE98E, 0xF9AF, 0x8948, 0x9969, 0xA90A, 0xB92B,
   0x5AF5, 0x4AD4, 0x7AB7, 0x6A96, 0x1A71, 0x0A50, 0x3A33, 0x2A12,
   0xDBFD, 0xCBDC, 0xFBBF, 0xEB9E, 0x9B79, 0x8B58, 0xBB3B, 0xAB1A,
   0x6CA6, 0x7C87, 0x4CE4, 0x5CC5, 0x2C22, 0x3C03, 0x0C60, 0x1C41,
   0xEDAE, 0xFD8F, 0xCDEC, 0xDDCD, 0xAD2A, 0xBD0B, 0x8D68, 0x9D49,
   0x7E97, 0x6EB6, 0x5ED5, 0x4EF4, 0x3E13, 0x2E32, 0x1E51, 0x0E70,
   0xFF9F, 0xEFBE, 0xDFDD, 0xCFFC, 0xBF1B, 0xAF3A, 0x9F59, 0x8F78]

/-- Rows 0x80 to 0xB8 of the table printed in 10_state.md R22. -/
def crcRows2 : List Word16 :=
  [0x9188, 0x81A9, 0xB1CA, 0xA1EB, 0xD10C, 0xC12D, 0xF14E, 0xE16F,
   0x1080, 0x00A1, 0x30C2, 0x20E3, 0x5004, 0x4025, 0x7046, 0x6067,
   0x83B9, 0x9398, 0xA3FB, 0xB3DA, 0xC33D, 0xD31C, 0xE37F, 0xF35E,
   0x02B1, 0x1290, 0x22F3, 0x32D2, 0x4235, 0x5214, 0x6277, 0x7256,
   0xB5EA, 0xA5CB, 0x95A8, 0x8589, 0xF56E, 0xE54F, 0xD52C, 0xC50D,
   0x34E2, 0x24C3, 0x14A0, 0x0481, 0x7466, 0x6447, 0x5424, 0x4405,
   0xA7DB, 0xB7FA, 0x8799, 0x97B8, 0xE75F, 0xF77E, 0xC71D, 0xD73C,
   0x26D3, 0x36F2, 0x0691, 0x16B0, 0x6657, 0x7676, 0x4615, 0x5634]

/-- Rows 0xC0 to 0xF8 of the table printed in 10_state.md R22. -/
def crcRows3 : List Word16 :=
  [0xD94C, 0xC96D, 0xF90E, 0xE92F, 0x99C8, 0x89E9, 0xB98A, 0xA9AB,
   0x5844, 0x4865, 0x7806, 0x6827, 0x18C0, 0x08E1, 0x3882, 0x28A3,
   0xCB7D, 0xDB5C, 0xEB3F, 0xFB1E, 0x8BF9, 0x9BD8, 0xABBB, 0xBB9A,
   0x4A75, 0x5A54, 0x6A37, 0x7A16, 0x0AF1, 0x1AD0, 0x2AB3, 0x3A92,
   0xFD2E, 0xED0F, 0xDD6C, 0xCD4D, 0xBDAA, 0xAD8B, 0x9DE8, 0x8DC9,
   0x7C26, 0x6C07, 0x5C64, 0x4C45, 0x3CA2, 0x2C83, 0x1CE0, 0x0CC1,
   0xEF1F, 0xFF3E, 0xCF5D, 0xDF7C, 0xAF9B, 0xBFBA, 0x8FD9, 0x9FF8,
   0x6E17, 0x7E36, 0x4E55, 0x5E74, 0x2E93, 0x3EB2, 0x0ED1, 0x1EF0]

/-- `CRC_TABLE` as R22 prints it (93_implementation_defined.md: the table is a parameter with this default). -/
def crcRom : Vector Word16 256 :=
  ⟨(crcRows0 ++ crcRows1 ++ crcRows2 ++ crcRows3).toArray, by
    simp only [List.size_toArray, List.length_append]; rfl⟩

/-- The fixed fields of `L2_DEFAULT` (42_frame_parser.md R123). -/
def defaultFixed : List FixedField :=
  [⟨0, .one, 0x4C⟩, ⟨1, .one, 0x4F⟩, ⟨2, .one, 0x4F⟩, ⟨4, .one, 0x01⟩,
   ⟨5, .two, 0x7FFF⟩, ⟨15, .one, 0xFF⟩, ⟨26, .two, 0x7FFF⟩, ⟨28, .two, 0x7FFF⟩,
   ⟨32, .one, 0xFF⟩, ⟨34, .one, 0xFF⟩, ⟨71, .one, 0xFF⟩, ⟨83, .two, 0x7FFF⟩,
   ⟨85, .two, 0x7FFF⟩, ⟨87, .two, 0x7FFF⟩, ⟨89, .two, 0x7FFF⟩, ⟨91, .two, 0x7FFF⟩,
   ⟨93, .two, 0x7FFF⟩, ⟨95, .one, 0x0A⟩, ⟨96, .one, 0x0D⟩]

/-- The value fields of `L2_DEFAULT` at offsets 3 to 33 (R122, R124). -/
def defaultValuesLow : List ValueField :=
  [⟨.trend, 3, .one, true, none⟩,
   ⟨.scaled .barometer .thousandths, 7, .two, false, none⟩,
   ⟨.scaled .insideTemp .tenths, 9, .two, true, some 0x7FFF⟩,
   ⟨.scaled .insideHum .identity, 11, .one, false, some 0xFF⟩,
   ⟨.scaled .outsideTemp .tenths, 12, .two, true, some 0x7FFF⟩,
   ⟨.scaled .windSpeed .identity, 14, .one, false, some 0xFF⟩,
   ⟨.winddir .windDir, 16, .two, false, some 0x7FFF⟩,
   ⟨.scaled .windAvg10 .tenths, 18, .two, false, some 0x7FFF⟩,
   ⟨.scaled .windAvg2 .tenths, 20, .two, false, some 0x7FFF⟩,
   ⟨.scaled .windGust10 .identity, 22, .two, false, some 0x7FFF⟩,
   ⟨.winddir .gustDir, 24, .two, false, some 0x7FFF⟩,
   ⟨.scaled .dewPoint .identity, 30, .two, true, some 0x00FF⟩,
   ⟨.scaled .outsideHum .identity, 33, .one, false, some 0xFF⟩]

/-- The value fields of `L2_DEFAULT` at offsets 35 to 79 (R122, R124). -/
def defaultValuesHigh : List ValueField :=
  [⟨.scaled .heatIndex .identity, 35, .two, true, some 0x00FF⟩,
   ⟨.scaled .windChill .identity, 37, .two, true, some 0x00FF⟩,
   ⟨.scaled .thsw .identity, 39, .two, true, some 0x00FF⟩,
   ⟨.rain .rainRate, 41, .two, false, none⟩,
   ⟨.scaled .uv .tenths, 43, .one, false, some 0xFF⟩,
   ⟨.scaled .solar .identity, 44, .two, false, some 0x7FFF⟩,
   ⟨.rain .stormRain, 46, .two, false, none⟩,
   ⟨.rain .dailyRain, 50, .two, false, none⟩,
   ⟨.rain .rain15min, 52, .two, false, none⟩,
   ⟨.rain .rain1h, 54, .two, false, none⟩,
   ⟨.scaled .dailyEt .thousandths, 56, .two, false, none⟩,
   ⟨.rain .rain24h, 58, .two, false, none⟩,
   ⟨.scaled .minuteInHour .identity, 79, .one, false, none⟩]

/-- `L2_DEFAULT` (R122). -/
def l2Default : Layout :=
  ⟨defaultFixed, defaultValuesLow ++ defaultValuesHigh⟩

/-- The default `TREND_TABLE` (R142). -/
def defaultTrendTable : List TrendEntry :=
  [⟨"FALLING_RAPIDLY", -60⟩,
   ⟨"FALLING_SLOWLY", -20⟩,
   ⟨"STEADY", 0⟩,
   ⟨"RISING_SLOWLY", 20⟩,
   ⟨"RISING_RAPIDLY", 60⟩]

/-- The default `CMD_TABLE` (43_command_encoder.md R160). -/
def defaultCmdTable : List CmdEntry :=
  [⟨"WAKEUP", [0x0A], true, false⟩,
   ⟨"TEST", [0x54, 0x45, 0x53, 0x54, 0x0A], true, false⟩,
   ⟨"LOOP", [0x4C, 0x4F, 0x4F, 0x50, 0x20], false, false⟩,
   ⟨"CLRLOG", [0x43, 0x4C, 0x52, 0x4C, 0x4F, 0x47, 0x0A], true, true⟩,
   ⟨"NEWSETUP", [0x4E, 0x45, 0x57, 0x53, 0x45, 0x54, 0x55, 0x50, 0x0A], true, true⟩]

/-- The default `TOKEN_TABLE` (R161). -/
def defaultTokenTable : List TokenEntry :=
  [⟨"ACK", [0x06]⟩,
   ⟨"AWAKE", [0x0A, 0x0D]⟩,
   ⟨"OK", [0x0A, 0x0D, 0x4F, 0x4B, 0x0A, 0x0D]⟩,
   ⟨"DONE", [0x44, 0x4F, 0x4E, 0x45, 0x0A, 0x0D]⟩]

/-- The parameters with the default tables, for a given `TEXT_HIGH` and `MAX_DIN`. -/
def defaultConfig (textHigh : TextHigh) (maxDin : Nat) : Config where
  crcTable   := crcRom
  layout     := l2Default
  trendTable := defaultTrendTable
  cmdTable   := defaultCmdTable
  tokenTable := defaultTokenTable
  textHigh   := textHigh
  maxDin     := maxDin

/-- The parameters of the block after reset (10_state.md R33): the default tables, with the two OPEN parameters left
open (log 2). -/
def resetConfig : Config :=
  defaultConfig Config.openTextHigh (Config.openMaxDinExtra + 99)

end Sys2Proof.Machine
end

