-- ==== Sys2Proof/Syntax.lean ====
section
/-! DEFINITION. The request record (spec/10_state.md R30) and the instructions: one constructor per row of
spec/opcode_table.json, with the operands that spec/30_encoding.md R65 gives the row, in the order of its assembler
syntax (R73) where that names scalars and then a buffer. -/

namespace Sys2Proof

/-- A request (10_state.md R30): the command word, three scalars, the byte buffer and the text. -/
structure Request where
  cmd   : Word32
  s0    : Word32
  s1    : Word32
  s2    : Word32
  din   : Bytes
  dtext : Text
  deriving DecidableEq, Repr

/-- The field format of FLD.EXTRACT (30_encoding.md R66): the bits `W`, `S` and `E` of `SEL`. -/
structure FieldFormat where
  /-- `W`: false for an 8-bit field, true for a 16-bit field. -/
  wide      : Bool
  /-- `S`: true for a two's complement field. -/
  signed    : Bool
  /-- `E`: true for big-endian; must be false when `wide` is false. -/
  bigEndian : Bool
  deriving DecidableEq, Repr

/-- The 21 operations of 30_encoding.md R64, each with its operands (R65). A command id or a token id is the `SEL`
byte (R68). -/
inductive Instr where
  /-- CRC.STEP (41_checksum.md R100). -/
  | crcStep (acc byte : Word32)
  /-- CRC.COMPUTE (R101). -/
  | crcCompute (seed : Word32) (buf : Bytes)
  /-- CRC.VERIFY (R102). -/
  | crcVerify (buf : Bytes)
  /-- CRC.APPEND (R103). -/
  | crcAppend (buf : Bytes)
  /-- CRC.TABLE (R104). -/
  | crcTable (index : Word32)
  /-- FRM.DECODE (42_frame_parser.md R130). -/
  | frmDecode (num den : Word32) (buf : Bytes)
  /-- FLD.EXTRACT (R133). -/
  | fldExtract (fmt : FieldFormat) (offset : Word32) (buf : Bytes)
  /-- FLD.SCALE (R134). -/
  | fldScale (kind : ScaleKind) (raw : Word32)
  /-- FLD.TREND (R135). -/
  | fldTrend (raw : Word32)
  /-- FLD.WINDDIR (R136). -/
  | fldWinddir (raw : Word32)
  /-- FLD.RAIN (R137). -/
  | fldRain (clicks num den : Word32)
  /-- ENC.CMD (43_command_encoder.md R163). -/
  | encCmd (id : Byte) (params : Bytes)
  /-- CMD.INFO (R164). -/
  | cmdInfo (id : Byte)
  /-- ENC.HEX (R165). -/
  | encHex (buf : Bytes)
  /-- ENC.TEXT (R170). -/
  | encText (text : Text)
  /-- DATE.PACK (R172). -/
  | datePack (year month day : Word32)
  /-- DATE.UNPACK (R173). -/
  | dateUnpack (packed : Word32)
  /-- TIME.PACK (R174). -/
  | timePack (hour minute : Word32)
  /-- TIME.UNPACK (R175). -/
  | timeUnpack (packed : Word32)
  /-- RSP.MATCH (R176). -/
  | rspMatch (id : Byte) (buf : Bytes)
  /-- RSP.INFO (R177). -/
  | rspInfo (id : Byte)
  deriving DecidableEq, Repr

end Sys2Proof
end

