-- ==== Sys2Proof/WellFormed.lean ====
section
/-! DEFINITION. Well-formed instructions (spec/30_encoding.md R66) and well-formed parameters (70_reset_and_hazards.md
R234: 10_state.md R22 to R26, 42_frame_parser.md R121, 43_command_encoder.md R160, R161). -/

namespace Sys2Proof

/-- `E` "must be 0 when `W` = 0" (30_encoding.md R66). The other bits of `SEL` that R66 to R68 rule out cannot be
written down in `FieldFormat`, `ScaleKind` and the id bytes. -/
abbrev FieldFormat.WF (f : FieldFormat) : Prop :=
  f.bigEndian = true → f.wide = true

/-- A well-formed instruction: one that some legal request stands for (30_encoding.md R62). -/
abbrev Instr.WF : Instr → Prop
  | .fldExtract fmt _ _ => fmt.WF
  | _ => True

/-- The bytes a field covers: its width in bytes (42_frame_parser.md R121). -/
def Width.bytes : Width → Nat
  | .one => 1
  | .two => 2

/-- The record attribute a target stands for, with its kind's constructor (R131). -/
inductive Attr where
  | scaled (attr : ScaledAttr)
  | winddir (attr : WindAttr)
  | rain (attr : RainAttr)
  | trend
  deriving DecidableEq, Repr

/-- The attribute of a target. -/
def Target.attr : Target → Attr
  | .scaled a _ => .scaled a
  | .winddir a => .winddir a
  | .rain a => .rain a
  | .trend => .trend

/-- The 26 record attributes that a value field fills (R131), in the order of R124. -/
def Attr.all : List Attr :=
  [.trend, .scaled .barometer, .scaled .insideTemp, .scaled .insideHum, .scaled .outsideTemp, .scaled .windSpeed,
   .winddir .windDir, .scaled .windAvg10, .scaled .windAvg2, .scaled .windGust10, .winddir .gustDir,
   .scaled .dewPoint, .scaled .outsideHum, .scaled .heatIndex, .scaled .windChill, .scaled .thsw,
   .rain .rainRate, .scaled .uv, .scaled .solar, .rain .stormRain, .rain .dailyRain, .rain .rain15min,
   .rain .rain1h, .scaled .dailyEt, .rain .rain24h, .scaled .minuteInHour]

/-- The offset and the width in bytes of every field of a layout. -/
def Layout.spans (l : Layout) : List (Nat × Nat) :=
  l.fixed.map (fun f => (f.off, f.width.bytes)) ++ l.values.map (fun v => (v.off, v.width.bytes))

/-- Two fields share no byte. -/
abbrev Disjoint2 (a b : Nat × Nat) : Prop :=
  a.1 + a.2 ≤ b.1 ∨ b.1 + b.2 ≤ a.1

/-- A well-formed layout (R121), with the part of the frame map that is no parameter: the tag, the trend byte and the
record-type byte at offsets 0 to 4 (20_memory.md R51, 00_scope.md R6, 92 D10, D11; log 13). -/
structure Layout.WF (l : Layout) : Prop where
  /-- "every field inside bytes 0 to 96". -/
  inside : ∀ p ∈ l.spans, p.1 + p.2 ≤ 97
  /-- "no two fields overlapping". -/
  apart : l.spans.Pairwise Disjoint2
  /-- `value < 2^(8*width)`. -/
  value : ∀ f ∈ l.fixed, f.value.toNat < 2 ^ (8 * f.width.bytes)
  /-- "one value field for each record attribute": at most one. -/
  unique : (l.values.map (·.target.attr)).Nodup
  /-- "one value field for each record attribute": at least one. -/
  complete : ∀ a ∈ Attr.all, a ∈ l.values.map (·.target.attr)
  /-- "a 3-byte tag at offsets 0 to 2" (R51), checked as three 1-byte fixed fields (92 D11). -/
  tag : ∀ o ∈ [0, 1, 2], ∃ f ∈ l.fixed, f.off = o ∧ f.width = .one
  /-- "the trend byte at 3" (R51), a "signed trend byte". -/
  trendByte : ∃ v ∈ l.values, v.target = .trend ∧ v.off = 3 ∧ v.width = .one ∧ v.signed = true
  /-- "the record-type byte at 4" (R51), which must equal 1 (R6, R122). -/
  recordType : ⟨4, .one, 1⟩ ∈ l.fixed

/-- A well-formed trend table: signed 8-bit codes, each at most once (R142). -/
structure TrendTableWF (t : List TrendEntry) : Prop where
  codes : ∀ e ∈ t, -128 ≤ e.code ∧ e.code ≤ 127
  unique : (t.map (·.code)).Nodup

/-- A well-formed command table (10_state.md R23, 43_command_encoder.md R160, R166). -/
structure CmdTableWF (t : List CmdEntry) : Prop where
  /-- "holds at least these five entries, with ids 0 to 4 as above" (R160). -/
  defaults : Machine.defaultCmdTable <+: t
  /-- "no two commands share a symbolic name" (R23). -/
  names : (t.map (·.name)).Nodup
  /-- `id : Byte` (R23). -/
  size : t.length ≤ 256
  /-- "every complete entry's template must end with its terminator" (R160), the line feed of R166: log 13. -/
  terminated : ∀ e ∈ t, e.isComplete = true → e.template.getLast? = some 0x0A

/-- A well-formed token table (10_state.md R24, 43_command_encoder.md R161). -/
structure TokenTableWF (t : List TokenEntry) : Prop where
  /-- "holding at least these four entries with these ids" (R161). -/
  defaults : Machine.defaultTokenTable <+: t
  /-- `len(bytes) >= 1` (R24). -/
  nonempty : ∀ e ∈ t, e.bytes ≠ []
  /-- `id : Byte` (R24). -/
  size : t.length ≤ 256

/-- A CRC table with the contents of 10_state.md R22. -/
abbrev CrcTableWF (t : Vector Word16 256) : Prop :=
  ∀ i : Fin 256, t[i] = Machine.crcGen (BitVec.ofFin i)

/-- Well-formed parameters: the premise of a run (70_reset_and_hazards.md R234). -/
structure Config.WF (c : Config) : Prop where
  crcTable : CrcTableWF c.crcTable
  layout : c.layout.WF
  trendTable : TrendTableWF c.trendTable
  cmdTable : CmdTableWF c.cmdTable
  tokenTable : TokenTableWF c.tokenTable
  /-- `MAX_DIN` is at least 99 (R6, 20_memory.md R41). -/
  maxDin : 99 ≤ c.maxDin

end Sys2Proof
end

