-- ==== Sys2Proof/Decode.lean ====
section
/-! DEFINITION. Decoding a request (spec/30_encoding.md R61, R62, R64 to R68, R70), total and rejecting by name, and the
encoder of the same tables. -/

namespace Sys2Proof

/-- Why a request is an illegal encoding (30_encoding.md R62, R70), in the order of the checks. -/
inductive Illegal where
  /-- The `OP` value is not in the opcode map. -/
  | op
  /-- `RSV` is not 0. -/
  | rsv
  /-- `SEL` is not legal for the operation. -/
  | sel
  /-- A request field the operation does not use is not neutral. -/
  | unused
  deriving DecidableEq, Repr

/-- `cmd[7:0]` (R61). -/
def Request.op (r : Request) : Byte := r.cmd.extractLsb' 0 8

/-- `cmd[15:8]` (R61). -/
def Request.sel (r : Request) : Byte := r.cmd.extractLsb' 8 8

/-- `cmd[31:16]` (R61). -/
def Request.rsv (r : Request) : Word16 := r.cmd.extractLsb' 16 16

/-- The request with a given command word and every field neutral (10_state.md R30). -/
def Request.neutral (cmd : Word32) : Request :=
  { cmd := cmd, s0 := 0, s1 := 0, s2 := 0, din := [], dtext := [] }

/-- A field format from `SEL` (R66): bits `W`, `S`, `E`. -/
def FieldFormat.ofSel (sel : Byte) : FieldFormat :=
  { wide := sel.getLsbD 0, signed := sel.getLsbD 1, bigEndian := sel.getLsbD 2 }

/-- The `SEL` of a field format (R66). -/
def FieldFormat.toSel (f : FieldFormat) : Byte :=
  (if f.wide then 1 else 0) ||| (if f.signed then 2 else 0) ||| (if f.bigEndian then 4 else 0)

/-- The scale kind a `SEL` of 0 to 3 stands for (R67). -/
def ScaleKind.ofSel (sel : Byte) : ScaleKind :=
  match sel.toNat with
  | 0 => .identity
  | 1 => .tenths
  | 2 => .hundredths
  | _ => .thousandths

/-- The `SEL` of a scale kind (R67). -/
def ScaleKind.toSel : ScaleKind → Byte
  | .identity => 0
  | .tenths => 1
  | .hundredths => 2
  | .thousandths => 3

/-- How an operation takes `SEL` (R64). -/
inductive SelUse where
  | zero
  | format
  | scale
  | tableId
  deriving DecidableEq, Repr

/-- The `SEL` values legal for an operation (R66 to R68, R70). -/
def SelUse.legal : SelUse → Byte → Bool
  | .zero, sel => sel == 0
  | .format, sel => [0x00, 0x02, 0x01, 0x03, 0x05, 0x07].contains sel
  | .scale, sel => sel.toNat < 4
  | .tableId, _ => true

/-- One row of the opcode map: the `OP` value and the use of `SEL` (R64), the request fields the operation uses (R65),
and the instruction a legal request stands for. -/
structure OpRow where
  op    : Byte
  sel   : SelUse
  s0    : Bool
  s1    : Bool
  s2    : Bool
  din   : Bool
  dtext : Bool
  build : Request → Instr

/-- The checksum rows of R64 and R65. -/
def opRowsChecksum : List OpRow :=
  [⟨0x01, .zero, true, true, false, false, false, fun r => .crcStep r.s0 r.s1⟩,
   ⟨0x02, .zero, true, false, false, true, false, fun r => .crcCompute r.s0 r.din⟩,
   ⟨0x03, .zero, false, false, false, true, false, fun r => .crcVerify r.din⟩,
   ⟨0x04, .zero, false, false, false, true, false, fun r => .crcAppend r.din⟩,
   ⟨0x05, .zero, true, false, false, false, false, fun r => .crcTable r.s0⟩]

/-- The frame and field rows of R64 and R65. -/
def opRowsFrame : List OpRow :=
  [⟨0x10, .zero, true, true, false, true, false, fun r => .frmDecode r.s0 r.s1 r.din⟩,
   ⟨0x11, .format, true, false, false, true, false, fun r => .fldExtract (.ofSel r.sel) r.s0 r.din⟩,
   ⟨0x12, .scale, true, false, false, false, false, fun r => .fldScale (.ofSel r.sel) r.s0⟩,
   ⟨0x13, .zero, true, false, false, false, false, fun r => .fldTrend r.s0⟩,
   ⟨0x14, .zero, true, false, false, false, false, fun r => .fldWinddir r.s0⟩,
   ⟨0x15, .zero, true, true, true, false, false, fun r => .fldRain r.s0 r.s1 r.s2⟩]

/-- The command encoder rows of R64 and R65. -/
def opRowsEncoder : List OpRow :=
  [⟨0x20, .tableId, false, false, false, true, false, fun r => .encCmd r.sel r.din⟩,
   ⟨0x21, .tableId, false, false, false, false, false, fun r => .cmdInfo r.sel⟩,
   ⟨0x22, .zero, false, false, false, true, false, fun r => .encHex r.din⟩,
   ⟨0x23, .zero, false, false, false, false, true, fun r => .encText r.dtext⟩,
   ⟨0x24, .zero, true, true, true, false, false, fun r => .datePack r.s0 r.s1 r.s2⟩,
   ⟨0x25, .zero, true, false, false, false, false, fun r => .dateUnpack r.s0⟩,
   ⟨0x26, .zero, true, true, false, false, false, fun r => .timePack r.s0 r.s1⟩,
   ⟨0x27, .zero, true, false, false, false, false, fun r => .timeUnpack r.s0⟩,
   ⟨0x28, .tableId, false, false, false, true, false, fun r => .rspMatch r.sel r.din⟩,
   ⟨0x29, .tableId, false, false, false, false, false, fun r => .rspInfo r.sel⟩]

/-- The opcode map (R64). -/
def opcodeMap : List OpRow :=
  opRowsChecksum ++ opRowsFrame ++ opRowsEncoder

/-- Every request field the operation does not use is neutral (R62, R65). -/
def OpRow.restNeutral (row : OpRow) (r : Request) : Bool :=
  (row.s0 || r.s0 == 0) && (row.s1 || r.s1 == 0) && (row.s2 || r.s2 == 0) &&
    (row.din || r.din.isEmpty) && (row.dtext || r.dtext.isEmpty)

/-- The row of an `OP` value, if the map has one. -/
def opRow? (op : Byte) : Option OpRow :=
  opcodeMap.find? (fun row => row.op == op)

/-- Decode a request (R62): the checks in the order `OP`, `RSV`, `SEL`, unused field. -/
def decode (r : Request) : Except Illegal Instr :=
  match opRow? r.op with
  | none => .error .op
  | some row =>
    if r.rsv ≠ 0 then .error .rsv
    else if row.sel.legal r.sel = false then .error .sel
    else if row.restNeutral r = false then .error .unused
    else .ok (row.build r)

/-- The command word `OP | (SEL << 8)` (R61, R64). -/
def commandWord (op sel : Byte) : Word32 :=
  op.setWidth 32 ||| (sel.setWidth 32 <<< 8)

/-- The command word of an instruction (R64, R73). -/
def encodeWord : Instr → Word32
  | .crcStep _ _ => commandWord 0x01 0
  | .crcCompute _ _ => commandWord 0x02 0
  | .crcVerify _ => commandWord 0x03 0
  | .crcAppend _ => commandWord 0x04 0
  | .crcTable _ => commandWord 0x05 0
  | .frmDecode _ _ _ => commandWord 0x10 0
  | .fldExtract fmt _ _ => commandWord 0x11 fmt.toSel
  | .fldScale kind _ => commandWord 0x12 kind.toSel
  | .fldTrend _ => commandWord 0x13 0
  | .fldWinddir _ => commandWord 0x14 0
  | .fldRain _ _ _ => commandWord 0x15 0
  | .encCmd id _ => commandWord 0x20 id
  | .cmdInfo id => commandWord 0x21 id
  | .encHex _ => commandWord 0x22 0
  | .encText _ => commandWord 0x23 0
  | .datePack _ _ _ => commandWord 0x24 0
  | .dateUnpack _ => commandWord 0x25 0
  | .timePack _ _ => commandWord 0x26 0
  | .timeUnpack _ => commandWord 0x27 0
  | .rspMatch id _ => commandWord 0x28 id
  | .rspInfo id => commandWord 0x29 id

/-- The request of an instruction: its command word, its operands in the fields R65 gives them, the other fields
neutral. -/
def encode (i : Instr) : Request :=
  let r := Request.neutral (encodeWord i)
  match i with
  | .crcStep acc byte => { r with s0 := acc, s1 := byte }
  | .crcCompute seed buf => { r with s0 := seed, din := buf }
  | .crcVerify buf => { r with din := buf }
  | .crcAppend buf => { r with din := buf }
  | .crcTable index => { r with s0 := index }
  | .frmDecode num den buf => { r with s0 := num, s1 := den, din := buf }
  | .fldExtract _ offset buf => { r with s0 := offset, din := buf }
  | .fldScale _ raw => { r with s0 := raw }
  | .fldTrend raw => { r with s0 := raw }
  | .fldWinddir raw => { r with s0 := raw }
  | .fldRain clicks num den => { r with s0 := clicks, s1 := num, s2 := den }
  | .encCmd _ params => { r with din := params }
  | .cmdInfo _ => r
  | .encHex buf => { r with din := buf }
  | .encText text => { r with dtext := text }
  | .datePack year month day => { r with s0 := year, s1 := month, s2 := day }
  | .dateUnpack packed => { r with s0 := packed }
  | .timePack hour minute => { r with s0 := hour, s1 := minute }
  | .timeUnpack packed => { r with s0 := packed }
  | .rspMatch _ buf => { r with din := buf }
  | .rspInfo _ => r

/-- The request whose command word is the low `nbits` bits of `w`, every other bit of the request 0: the one-word form
of an instruction in which spec/opcode_table.json numbers its bits. -/
def tableRequest (nbits w : Nat) : Request :=
  Request.neutral (BitVec.ofNat 32 (w % 2 ^ nbits))

/-- The instruction the decoder reads from a table word with neutral operands. -/
def decodeTableWord (nbits w : Nat) : Option Instr :=
  match decode (tableRequest nbits w) with
  | .ok i => some i
  | .error _ => none

end Sys2Proof
end

