-- ==== Sys2Proof/Machine/State.lean ====
section
/-! DEFINITION. The decoded record and the response (spec/42_frame_parser.md R131, 10_state.md R31), the state of one
block instance with its host, the reasons a step can stop, and the state after reset (10_state.md R33). -/

namespace Sys2Proof.Machine

/-- `Loop2Record` (42_frame_parser.md R131): the checksum-valid flag and one field per record attribute. -/
structure Loop2Record where
  crcOk        : Bool
  /-- The trend, as an index into `TREND_TABLE`. -/
  barTrend     : Option Nat
  barometer    : Option Rat
  insideTemp   : Option Rat
  outsideTemp  : Option Rat
  insideHum    : Option Rat
  outsideHum   : Option Rat
  windSpeed    : Option Rat
  windAvg10    : Option Rat
  windAvg2     : Option Rat
  windGust10   : Option Rat
  dewPoint     : Option Rat
  heatIndex    : Option Rat
  windChill    : Option Rat
  thsw         : Option Rat
  uv           : Option Rat
  solar        : Option Rat
  dailyEt      : Option Rat
  minuteInHour : Option Rat
  windDir      : Option Word16
  gustDir      : Option Word16
  rainRate     : Option Rat
  stormRain    : Option Rat
  dailyRain    : Option Rat
  rain15min    : Option Rat
  rain1h       : Option Rat
  rain24h      : Option Rat
  deriving DecidableEq, Repr

/-- A response (10_state.md R31): `status` is always present, every other field is absent unless the rule sets it. -/
structure Response where
  status : Byte
  r0     : Option Word32 := none
  r1     : Option Word32 := none
  r2     : Option Word32 := none
  rq     : Option Rat := none
  dout   : Option Bytes := none
  /-- `rec`: the decoded record. -/
  record : Option Loop2Record := none
  deriving DecidableEq, Repr

/-- What the outside world does to the block, in the order it does it (60_exceptions.md R214, 70_reset_and_hazards.md
R230, R235): the model's own, log 3. -/
inductive HostEvent where
  /-- A host issues a request. It waits while another one is outstanding (20_memory.md R56, log 5). -/
  | issue (r : Request)
  /-- The host waits for the response of the request it has outstanding, if any (log 4). -/
  | wait
  /-- Reset is asserted (R230). -/
  | reset
  deriving DecidableEq, Repr

/-- The state of one block instance and of what its host does. -/
structure State where
  /-- The parameters of the instance (00_scope.md R6), which no step changes (10_state.md R27): log 1. -/
  cfg       : Config
  /-- The request the block is working on (10_state.md R33, 70_reset_and_hazards.md R230). -/
  inFlight  : Option Request
  /-- What the outside world does next, in order: the model's own, log 3. -/
  host      : List HostEvent
  /-- The responses delivered so far, in the order of their requests (70_reset_and_hazards.md R235): log 6. -/
  responses : List Response
  deriving DecidableEq, Repr

/-- The reasons a step can stop with a fault: there are none. "The core never terminates the caller's execution — it
always returns a result or a typed error" (10_state.md R32, 60_exceptions.md R201): an error is a response. -/
inductive Fault where
  deriving DecidableEq, Repr

/-- The reasons a step can refuse an instruction. -/
inductive Refusal where
  /-- Raised by an arm of `exec` for an instruction that has no meaning yet; safe. No arm raises it: every instruction
  has its meaning. -/
  | notModelled (mnemonic : String)
  deriving DecidableEq, Repr

/-- The state after reset (10_state.md R33): the tables with the contents of the spec, no request in flight, and, by
the model's choice, nothing delivered and nothing yet to come from the host (log 3, log 6). -/
def State.reset : State where
  cfg       := resetConfig
  inFlight  := none
  host      := []
  responses := []

end Sys2Proof.Machine
end

