-- ==== Sys2Proof/Machine/Operands.lean ====
section
/-! DEFINITION. Operand forms: byte order, field reads, sign extension (spec/00_scope.md R9, R10, 20_memory.md R42 to
R45), the buffer bound (R41), counts as 32-bit results, and the codecs of hex digits and code points
(43_command_encoder.md R165, R170). -/

namespace Sys2Proof.Machine

/-- The byte of a buffer at an offset (R10, `b[i]`). At an offset outside the buffer, which no operation reads under a
well-formed layout, it is a free value: log 12. -/
def byteAt (b : Bytes) (o : Nat) : Byte :=
  b.getD o (Config.freeByte b o)

/-- `LE16(b, o)` (R10, 20_memory.md R42). -/
def le16 (b : Bytes) (o : Nat) : Word16 :=
  byteAt b (o + 1) ++ byteAt b o

/-- `BE16(b, o)` (R10, 20_memory.md R43). -/
def be16 (b : Bytes) (o : Nat) : Word16 :=
  byteAt b o ++ byteAt b (o + 1)

/-- `BE16bytes(w)` (R10). -/
def be16Bytes (w : Word16) : Bytes :=
  [w.extractLsb' 8 8, w.extractLsb' 0 8]

/-- `rd(b, off, width)`: a raw field as an unsigned bit pattern (42_frame_parser.md section 4). -/
def readField (b : Bytes) (o : Nat) : Width → Word16
  | .one => (byteAt b o).setWidth 16
  | .two => le16 b o

/-- The value of a raw field: `sext_(8*width)(raw)` when signed, else `raw` (R9, 42_frame_parser.md R130). -/
def fieldValue (w : Width) (signed : Bool) (raw : Word16) : Int :=
  match w, signed with
  | .one, true => (raw.setWidth 8).toInt
  | .two, true => raw.toInt
  | _, false => raw.toNat

/-- The width of a FLD.EXTRACT format (42_frame_parser.md R133). -/
def formatWidth (f : FieldFormat) : Width :=
  if f.wide then .two else .one

/-- The raw field a FLD.EXTRACT format reads (R133): big-endian only for a 16-bit field. -/
def readFormat (f : FieldFormat) (b : Bytes) (o : Nat) : Word16 :=
  if f.wide && f.bigEndian then be16 b o else readField b o (formatWidth f)

/-- `s0 mod 2^32` of a signed result (R133, 92 D37): the 32-bit two's complement pattern. -/
def pattern32 (x : Int) : Word32 :=
  BitVec.ofInt 32 x

/-- A count, an index or a length as a 32-bit result. Above 2^32 - 1 the spec states no result: a free value, log 9. -/
def scalar (n : Nat) : Word32 :=
  if n < 2 ^ 32 then BitVec.ofNat 32 n else Config.freeScalar n

/-- `len(buf) <= bound` (20_memory.md R41). -/
def fits {α : Type} : List α → Nat → Bool
  | [], _ => true
  | _ :: _, 0 => false
  | _ :: rest, n + 1 => fits rest n

/-- `hexval(c)` of an ASCII byte (43_command_encoder.md section 3); `none` for a byte that is no hex digit. -/
def hexVal (c : Byte) : Option Byte :=
  if 0x30 ≤ c.toNat ∧ c.toNat ≤ 0x39 then some (c - 0x30)
  else if 0x41 ≤ c.toNat ∧ c.toNat ≤ 0x46 then some (c - 0x41 + 10)
  else if 0x61 ≤ c.toNat ∧ c.toNat ≤ 0x66 then some (c - 0x61 + 10)
  else none

/-- The index of the first byte that is no hex digit (R165). -/
def firstNonHex (b : Bytes) : Option Nat :=
  b.findIdx? (fun c => (hexVal c).isNone)

/-- `hexval(hi) * 16 + hexval(lo)` for each pair of a string of hex digits (R165). -/
def hexPairs : Bytes → Bytes
  | hi :: lo :: rest => ((hexVal hi).getD 0 * 16 + (hexVal lo).getD 0) :: hexPairs rest
  | _ => []

/-- `utf8(c)` for a code point above 0x7F (43_command_encoder.md R170). -/
def utf8 (c : Nat) : Bytes :=
  if c < 0x800 then
    [BitVec.ofNat 8 (0xC0 ||| (c >>> 6)), BitVec.ofNat 8 (0x80 ||| (c &&& 0x3F))]
  else if c < 0x10000 then
    [BitVec.ofNat 8 (0xE0 ||| (c >>> 12)), BitVec.ofNat 8 (0x80 ||| ((c >>> 6) &&& 0x3F)),
     BitVec.ofNat 8 (0x80 ||| (c &&& 0x3F))]
  else
    [BitVec.ofNat 8 (0xF0 ||| (c >>> 18)), BitVec.ofNat 8 (0x80 ||| ((c >>> 12) &&& 0x3F)),
     BitVec.ofNat 8 (0x80 ||| ((c >>> 6) &&& 0x3F)), BitVec.ofNat 8 (0x80 ||| (c &&& 0x3F))]

/-- The bytes of one code point under a setting of `TEXT_HIGH`; `none` where the setting cannot encode it (R170). -/
def encodePoint (high : TextHigh) (c : Nat) : Option Bytes :=
  if c ≤ 0x7F then some [BitVec.ofNat 8 c]
  else
    match high with
    | .latin1 => if c ≤ 0xFF then some [BitVec.ofNat 8 c] else none
    | .utf8 => if 0xD800 ≤ c ∧ c ≤ 0xDFFF then none else some (utf8 c)
    | .refuse => none

/-- The bytes of a text whose first code point has index `i`, or the index and the code point of the first one that
cannot be encoded (R170). -/
def encodeText (high : TextHigh) : Nat → Text → Except (Nat × CodePoint) Bytes
  | _, [] => .ok []
  | i, c :: rest =>
    match encodePoint high c.val with
    | none => .error (i, c)
    | some bytes =>
      match encodeText high (i + 1) rest with
      | .error e => .error e
      | .ok more => .ok (bytes ++ more)

end Sys2Proof.Machine
end

