-- ==== Sys2Proof/Machine/Ops.lean ====
section
/-! DEFINITION. The operations every step uses: building a success or an error response (spec/60_exceptions.md R200,
R201), delivering it, the buffer bound (20_memory.md R41), and the host's part: issuing, waiting and reset (R56,
70_reset_and_hazards.md R230). An error is no trap: no state is saved and there is no return (R207, R208). -/

namespace Sys2Proof.Machine

/-- The success response (R200, status 0x00), with the result fields a rule sets. -/
def okay (r0 r1 r2 : Option Word32 := none) (rq : Option Rat := none) (dout : Option Bytes := none)
    (record : Option Loop2Record := none) : Response :=
  { status := 0x00, r0 := r0, r1 := r1, r2 := r2, rq := rq, dout := dout, record := record }

/-- `raise` (00_scope.md R10): an error status with its information fields, nothing else present (R201). -/
def raise (status : Byte) (r0 r1 r2 : Option Word32 := none) : Response :=
  { status := status, r0 := r0, r1 := r1, r2 := r2 }

/-- `E_ENC_PARAMS_UNEXPECTED` with the command id (R200). -/
def raiseParamsUnexpected (id : Byte) : Response := raise 0x01 (some (id.setWidth 32))

/-- `E_ENC_PARAMS_MISSING` with the command id (R200). -/
def raiseParamsMissing (id : Byte) : Response := raise 0x02 (some (id.setWidth 32))

/-- `E_ENC_HEX_ODD` with the length (R200). -/
def raiseHexOdd (len : Nat) : Response := raise 0x03 (some (scalar len))

/-- `E_ENC_HEX_CHAR` with the index and the byte (R200). -/
def raiseHexChar (index : Nat) (c : Byte) : Response := raise 0x04 (some (scalar index)) none (some (c.setWidth 32))

/-- `E_ENC_TEXT` with the index and the code point (R200). -/
def raiseText (index : Nat) (c : CodePoint) : Response :=
  raise 0x05 (some (scalar index)) none (some (BitVec.ofNat 32 c.val))

/-- `E_DEC_BAD_LENGTH` with `min(len, 2^32 - 1)` (R200, 42_frame_parser.md R130). -/
def raiseBadLength (len : Nat) : Response := raise 0x10 (some (BitVec.ofNat 32 (min len (2 ^ 32 - 1))))

/-- `E_DEC_FIXED` with the offset, the expected and the actual value (R200). -/
def raiseFixed (off : Nat) (expected actual : Word16) : Response :=
  raise 0x11 (some (scalar off)) (some (expected.setWidth 32)) (some (actual.setWidth 32))

/-- `E_DOMAIN` with the number of the field (R200). -/
def raiseDomain (field : Word32) : Response := raise 0x20 (some field)

/-- `E_BAD_ID` with the id (R200). -/
def raiseBadId (id : Byte) : Response := raise 0x21 (some (id.setWidth 32))

/-- `E_OPERAND` with the number of the operand: 0 for a buffer length, 1 to 3 for `s0` to `s2` (R200). -/
def raiseOperand (operand : Word32) : Response := raise 0x22 (some operand)

/-- The `r0` of `E_ILLEGAL` for each cause (R200, 30_encoding.md R62). -/
def illegalNumber : Illegal → Word32
  | .op => 0
  | .rsv => 1
  | .sel => 2
  | .unused => 3

/-- `E_ILLEGAL` with its cause (R200). -/
def raiseIllegal (cause : Illegal) : Response := raise 0xFF (some (illegalNumber cause))

/-- The bound on `din` and `dtext` (20_memory.md R41): `E_OPERAND(r0 = 0)` before the operation's own checks. -/
def bounded {α : Type} (cfg : Config) (buf : List α) (body : Response) : Response :=
  if fits buf cfg.maxDin then body else raiseOperand 0

/-- The state with the in-flight request answered: the response is the one thing an operation writes (00_scope.md
R11, 10_state.md R31). -/
def deliver (s : State) (r : Response) : State :=
  { s with inFlight := none, responses := s.responses ++ [r] }

/-- Every operation ends by delivering its response (10_state.md R32). -/
def answer (s : State) (r : Response) : Host.Outcome State Fault Refusal :=
  .next (deliver s r)

/-- Reset lands now: the host asserts it before the block has answered (70_reset_and_hazards.md R230, log 4). -/
def resetNow (s : State) : Bool :=
  match s.host with
  | .reset :: _ => true
  | _ => false

/-- Reset (R230): an unfinished request is aborted and no response for it is delivered. Nothing else changes. -/
def applyReset (s : State) : State :=
  { s with inFlight := none, host := s.host.tail }

/-- The host's turn while no request is in flight (20_memory.md R56): it issues its next request, has nothing to wait
for, or asserts reset; with nothing to come, nothing happens (log 7). -/
def hostTurn (s : State) : State :=
  match s.host with
  | [] => s
  | .issue r :: rest => { s with inFlight := some r, host := rest }
  | .wait :: rest => { s with host := rest }
  | .reset :: _ => applyReset s

/-- The state in which the block works on a request and the host waits for its response. -/
def placeRequest (s : State) (r : Request) : State :=
  { s with inFlight := some r, host := .wait :: s.host }

end Sys2Proof.Machine
end

