-- ==== Sys2Proof/Machine/Crc.lean ====
section
/-! DEFINITION. The checksum loop (spec/41_checksum.md section 1, R101): shared by the checksum operations and by the
checksum-valid flag. -/

namespace Sys2Proof.Machine

/-- `T(i)` (00_scope.md R10). -/
def tableAt (cfg : Config) (i : Byte) : Word16 :=
  cfg.crcTable[i.toNat]'i.isLt

/-- `step(acc, b)`: 8-bit index, 16-bit accumulator (R100, R105). -/
def crcStep (cfg : Config) (acc : Word16) (b : Byte) : Word16 :=
  tableAt cfg ((acc >>> 8).setWidth 8 ^^^ b) ^^^ (acc <<< 8)

/-- `compute(seed, buf)` (R101): one step per byte, in order. -/
def crcCompute (cfg : Config) (seed : Word16) (buf : Bytes) : Word16 :=
  buf.foldl (crcStep cfg) seed

end Sys2Proof.Machine
end

