-- ==== Sys2Proof/Machine/Flags.lean ====
section
/-! DEFINITION. The one status bit the block computes, the checksum-valid flag (spec/10_state.md R28): a field of the
decoded record and the result of CRC.VERIFY. There is no flags register and there are no condition codes. -/

namespace Sys2Proof.Machine

/-- The whole buffer, its trailing big-endian checksum included, leaves remainder 0 (41_checksum.md R102,
42_frame_parser.md R130 step 3). -/
def checksumValid (cfg : Config) (buf : Bytes) : Bool :=
  crcCompute cfg 0 buf == 0

/-- A boolean result in a 32-bit field: 1 for true, 0 for false (R102). -/
def boolWord (b : Bool) : Word32 :=
  if b then 1 else 0

end Sys2Proof.Machine
end

