-- ==== Sys2Proof/Machine/Checksum.lean ====
section
/-! DEFINITION. The checksum engine operations (spec/41_checksum.md R100 to R104). -/

namespace Sys2Proof.Machine

/-- CRC.STEP (R100). -/
def execCrcStep (acc byte : Word32) (s : State) : Host.Outcome State Fault Refusal :=
  answer s <|
    if 2 ^ 16 ≤ acc.toNat then raiseOperand 1
    else if 2 ^ 8 ≤ byte.toNat then raiseOperand 2
    else okay (r0 := some ((crcStep s.cfg (acc.setWidth 16) (byte.setWidth 8)).setWidth 32))

/-- CRC.COMPUTE (R101). -/
def execCrcCompute (seed : Word32) (buf : Bytes) (s : State) : Host.Outcome State Fault Refusal :=
  answer s <| bounded s.cfg buf <|
    if 2 ^ 16 ≤ seed.toNat then raiseOperand 1
    else okay (r0 := some ((crcCompute s.cfg (seed.setWidth 16) buf).setWidth 32))

/-- CRC.VERIFY (R102). -/
def execCrcVerify (buf : Bytes) (s : State) : Host.Outcome State Fault Refusal :=
  answer s <| bounded s.cfg buf <|
    okay (r0 := some (boolWord (checksumValid s.cfg buf)))

/-- CRC.APPEND (R103). -/
def execCrcAppend (buf : Bytes) (s : State) : Host.Outcome State Fault Refusal :=
  answer s <| bounded s.cfg buf <|
    okay (r0 := some ((crcCompute s.cfg 0 buf).setWidth 32)) (dout := some (buf ++ be16Bytes (crcCompute s.cfg 0 buf)))

/-- CRC.TABLE (R104). -/
def execCrcTable (index : Word32) (s : State) : Host.Outcome State Fault Refusal :=
  answer s <|
    if 256 ≤ index.toNat then raiseOperand 1
    else okay (r0 := some ((tableAt s.cfg (index.setWidth 8)).setWidth 32))

end Sys2Proof.Machine
end

