-- ==== Sys2Proof/Machine/CommandEncoder.lean ====
section
/-! DEFINITION. The command encoder operations (spec/43_command_encoder.md R163 to R165, R170, R172 to R177). -/

namespace Sys2Proof.Machine

/-- ENC.CMD (R163). The `destructive` mark plays no part (R162). -/
def execEncCmd (id : Byte) (params : Bytes) (s : State) : Host.Outcome State Fault Refusal :=
  answer s <| bounded s.cfg params <|
    match s.cfg.cmdTable[id.toNat]? with
    | none => raiseBadId id
    | some e =>
      if e.isComplete = true ∧ params ≠ [] then raiseParamsUnexpected id
      else if e.isComplete = false ∧ params = [] then raiseParamsMissing id
      else okay (dout := some (e.template ++ params))

/-- The `r0` of CMD.INFO: bit 0 for complete, bit 1 for destructive (R164). -/
def cmdFlags (e : CmdEntry) : Word32 :=
  (if e.isComplete then 1 else 0) ||| (if e.destructive then 2 else 0)

/-- CMD.INFO (R164). -/
def execCmdInfo (id : Byte) (s : State) : Host.Outcome State Fault Refusal :=
  answer s <|
    match s.cfg.cmdTable[id.toNat]? with
    | none => raiseBadId id
    | some e => okay (r0 := some (cmdFlags e)) (r1 := some (scalar e.template.length)) (dout := some e.template)

/-- ENC.HEX (R165): the length first, then the first byte that is no hex digit. -/
def execEncHex (din : Bytes) (s : State) : Host.Outcome State Fault Refusal :=
  answer s <| bounded s.cfg din <|
    if din.length % 2 = 1 then raiseHexOdd din.length
    else
      match firstNonHex din with
      | some i => raiseHexChar i (byteAt din i)
      | none => okay (dout := some (hexPairs din))

/-- ENC.TEXT (R170). -/
def execEncText (text : Text) (s : State) : Host.Outcome State Fault Refusal :=
  answer s <| bounded s.cfg text <|
    match encodeText s.cfg.textHigh 0 text with
    | .error (i, c) => raiseText i c
    | .ok bytes => okay (dout := some bytes)

/-- DATE.PACK (R171, R172): day in bits 4..0, month in bits 8..5, year - 2000 in bits 15..9. -/
def execDatePack (year month day : Word32) (s : State) : Host.Outcome State Fault Refusal :=
  answer s <|
    if year.toNat < 2000 ∨ 2127 < year.toNat then raiseDomain 1
    else if month.toNat < 1 ∨ 12 < month.toNat then raiseDomain 2
    else if day.toNat < 1 ∨ 31 < day.toNat then raiseDomain 3
    else okay (r0 := some (((year - 2000) <<< 9) ||| (month <<< 5) ||| day))

/-- DATE.UNPACK (R173). -/
def execDateUnpack (packed : Word32) (s : State) : Host.Outcome State Fault Refusal :=
  answer s <|
    if 2 ^ 16 ≤ packed.toNat then raiseOperand 1
    else
      let day : Word32 := (packed.extractLsb' 0 5).setWidth 32
      let month : Word32 := (packed.extractLsb' 5 4).setWidth 32
      let year : Word32 := 2000 + (packed.extractLsb' 9 7).setWidth 32
      if month.toNat < 1 ∨ 12 < month.toNat then raiseDomain 2
      else if day.toNat < 1 then raiseDomain 3
      else okay (r0 := some year) (r1 := some month) (r2 := some day)

/-- TIME.PACK (R174). -/
def execTimePack (hour minute : Word32) (s : State) : Host.Outcome State Fault Refusal :=
  answer s <|
    if 23 < hour.toNat then raiseDomain 1
    else if 59 < minute.toNat then raiseDomain 2
    else okay (r0 := some (hour * 100 + minute))

/-- TIME.UNPACK (R175). -/
def execTimeUnpack (packed : Word32) (s : State) : Host.Outcome State Fault Refusal :=
  answer s <|
    if 2 ^ 16 ≤ packed.toNat then raiseOperand 1
    else if 23 < packed.toNat / 100 then raiseDomain 1
    else if 59 < packed.toNat % 100 then raiseDomain 2
    else okay (r0 := some (BitVec.ofNat 32 (packed.toNat / 100))) (r1 := some (BitVec.ofNat 32 (packed.toNat % 100)))

/-- RSP.MATCH (R176): exact equality of the whole sequence. -/
def execRspMatch (id : Byte) (din : Bytes) (s : State) : Host.Outcome State Fault Refusal :=
  answer s <| bounded s.cfg din <|
    match s.cfg.tokenTable[id.toNat]? with
    | none => raiseBadId id
    | some t => okay (r0 := some (boolWord (din == t.bytes)))

/-- RSP.INFO (R177). -/
def execRspInfo (id : Byte) (s : State) : Host.Outcome State Fault Refusal :=
  answer s <|
    match s.cfg.tokenTable[id.toNat]? with
    | none => raiseBadId id
    | some t => okay (r1 := some (scalar t.bytes.length)) (dout := some t.bytes)

end Sys2Proof.Machine
end

