-- ==== Sys2Proof/Machine/Fields.lean ====
section
/-! DEFINITION. The field semantics that FRM.DECODE and the FLD operations share (spec/42_frame_parser.md R132, R138 to
R142), the fixed-field check (R123, R130 step 2) and the value fields of a record (R130 steps 4 and 5). -/

namespace Sys2Proof.Machine

/-- The exponent of a scale kind: 0, 1, 2 or 3 (R139). -/
def scaleExponent : ScaleKind → Nat
  | .identity => 0
  | .tenths => 1
  | .hundredths => 2
  | .thousandths => 3

/-- The exact rational `x / 10^k` (R139). -/
def scaleValue (kind : ScaleKind) (x : Int) : Rat :=
  mkRat x (10 ^ scaleExponent kind)

/-- `windDir(x)` (R140). -/
def windDirection (x : Int) : Option Word16 :=
  if 1 ≤ x ∧ x ≤ 360 then some (BitVec.ofInt 16 x) else none

/-- The exact rational `x * num / den` (R141). -/
def rainAmount (num den : Word32) (x : Int) : Rat :=
  mkRat (x * num.toNat) den.toNat

/-- `trendOf(t)` (R142): the index of the entry whose code is `t`. -/
def trendOf (table : List TrendEntry) (t : Int) : Option Nat :=
  table.findIdx? (fun e => e.code == t)

/-- A fixed field put in its place by ascending offset, after those with the same offset (R130 step 2). -/
def insertFixed (f : FixedField) : List FixedField → List FixedField
  | [] => [f]
  | g :: rest => if f.off < g.off then f :: g :: rest else g :: insertFixed f rest

/-- The fixed fields in ascending offset order (R130 step 2). -/
def sortFixed (fs : List FixedField) : List FixedField :=
  fs.foldl (fun sorted f => insertFixed f sorted) []

/-- The fixed field differs from its constant in the frame (R130 step 2). -/
def fixedDiffers (din : Bytes) (f : FixedField) : Bool :=
  readField din f.off f.width != f.value

/-- The first fixed field, by ascending offset, that differs from its constant (R130 step 2). -/
def firstFixedMismatch (fs : List FixedField) (din : Bytes) : Option FixedField :=
  (sortFixed fs).find? (fixedDiffers din)

/-- The value of a value field, absent when its raw bit pattern is its sentinel (R138). -/
def presentValue (v : ValueField) (din : Bytes) : Option Int :=
  let raw := readField din v.off v.width
  if v.sentinel = some raw then none else some (fieldValue v.width v.signed raw)

/-- Writes a scaled attribute of a record. -/
def setScaled (rec : Loop2Record) (x : Option Rat) : ScaledAttr → Loop2Record
  | .barometer => { rec with barometer := x }
  | .insideTemp => { rec with insideTemp := x }
  | .outsideTemp => { rec with outsideTemp := x }
  | .insideHum => { rec with insideHum := x }
  | .outsideHum => { rec with outsideHum := x }
  | .windSpeed => { rec with windSpeed := x }
  | .windAvg10 => { rec with windAvg10 := x }
  | .windAvg2 => { rec with windAvg2 := x }
  | .windGust10 => { rec with windGust10 := x }
  | .dewPoint => { rec with dewPoint := x }
  | .heatIndex => { rec with heatIndex := x }
  | .windChill => { rec with windChill := x }
  | .thsw => { rec with thsw := x }
  | .uv => { rec with uv := x }
  | .solar => { rec with solar := x }
  | .dailyEt => { rec with dailyEt := x }
  | .minuteInHour => { rec with minuteInHour := x }

/-- Writes a direction of a record. -/
def setWind (rec : Loop2Record) (x : Option Word16) : WindAttr → Loop2Record
  | .windDir => { rec with windDir := x }
  | .gustDir => { rec with gustDir := x }

/-- Writes a rain attribute of a record. -/
def setRain (rec : Loop2Record) (x : Option Rat) : RainAttr → Loop2Record
  | .rainRate => { rec with rainRate := x }
  | .stormRain => { rec with stormRain := x }
  | .dailyRain => { rec with dailyRain := x }
  | .rain15min => { rec with rain15min := x }
  | .rain1h => { rec with rain1h := x }
  | .rain24h => { rec with rain24h := x }

/-- The record before any value field is read: every attribute absent. -/
def emptyRecord (crcOk : Bool) : Loop2Record where
  crcOk := crcOk
  barTrend := none
  barometer := none
  insideTemp := none
  outsideTemp := none
  insideHum := none
  outsideHum := none
  windSpeed := none
  windAvg10 := none
  windAvg2 := none
  windGust10 := none
  dewPoint := none
  heatIndex := none
  windChill := none
  thsw := none
  uv := none
  solar := none
  dailyEt := none
  minuteInHour := none
  windDir := none
  gustDir := none
  rainRate := none
  stormRain := none
  dailyRain := none
  rain15min := none
  rain1h := none
  rain24h := none

/-- `rec.(v.name) <- ...` for one value field (R130 steps 4 and 5). -/
def storeValue (cfg : Config) (num den : Word32) (din : Bytes) (rec : Loop2Record) (v : ValueField) : Loop2Record :=
  let x := presentValue v din
  match v.target with
  | .scaled a k => setScaled rec (x.map (scaleValue k)) a
  | .winddir a => setWind rec (x.bind windDirection) a
  | .rain a => setRain rec (x.map (rainAmount num den)) a
  | .trend => { rec with barTrend := x.bind (trendOf cfg.trendTable) }

/-- The record of a frame whose fixed fields match (R130 steps 3 to 5). -/
def decodeRecord (cfg : Config) (num den : Word32) (din : Bytes) : Loop2Record :=
  cfg.layout.values.foldl (storeValue cfg num den din) (emptyRecord (checksumValid cfg din))

end Sys2Proof.Machine
end

