-- ==== Sys2Proof/Machine/FrameParser.lean ====
section
/-! DEFINITION. The frame parser and field extractor operations (spec/42_frame_parser.md R130, R133 to R137). -/

namespace Sys2Proof.Machine

/-- FRM.DECODE (R130). The length comes before the bound on `din` (20_memory.md R41, 60_exceptions.md R203). -/
def execFrmDecode (num den : Word32) (din : Bytes) (s : State) : Host.Outcome State Fault Refusal :=
  answer s <|
    if din.length ≠ 99 then raiseBadLength din.length
    else bounded s.cfg din <|
      if den = 0 then raiseOperand 2
      else
        match firstFixedMismatch s.cfg.layout.fixed din with
        | some f => raiseFixed f.off f.value (readField din f.off f.width)
        | none => okay (record := some (decodeRecord s.cfg num den din))

/-- FLD.EXTRACT (R133). -/
def execFldExtract (fmt : FieldFormat) (offset : Word32) (din : Bytes) (s : State) :
    Host.Outcome State Fault Refusal :=
  answer s <| bounded s.cfg din <|
    if din.length < offset.toNat + (formatWidth fmt).bytes then raiseOperand 1
    else
      let raw := readFormat fmt din offset.toNat
      okay (r0 := some (pattern32 (fieldValue (formatWidth fmt) fmt.signed raw))) (r1 := some (raw.setWidth 32))

/-- FLD.SCALE (R134): the raw value is read as `sext_32(s0)`. -/
def execFldScale (kind : ScaleKind) (raw : Word32) (s : State) : Host.Outcome State Fault Refusal :=
  answer s <| okay (rq := some (scaleValue kind raw.toInt))

/-- FLD.TREND (R135): the raw byte is read as `sext_8(s0)`. -/
def execFldTrend (raw : Word32) (s : State) : Host.Outcome State Fault Refusal :=
  answer s <|
    if 256 ≤ raw.toNat then raiseOperand 1
    else
      match trendOf s.cfg.trendTable (raw.setWidth 8).toInt with
      | some i => okay (r0 := some (scalar i)) (r1 := some 1)
      | none => okay (r1 := some 0)

/-- FLD.WINDDIR (R136). -/
def execFldWinddir (raw : Word32) (s : State) : Host.Outcome State Fault Refusal :=
  answer s <|
    if 2 ^ 16 ≤ raw.toNat then raiseOperand 1
    else
      match windDirection raw.toNat with
      | some d => okay (r0 := some (d.setWidth 32)) (r1 := some 1)
      | none => okay (r1 := some 0)

/-- FLD.RAIN (R137). -/
def execFldRain (clicks num den : Word32) (s : State) : Host.Outcome State Fault Refusal :=
  answer s <|
    if 2 ^ 16 ≤ clicks.toNat then raiseOperand 1
    else if den = 0 then raiseOperand 3
    else okay (rq := some (rainAmount num den clicks.toNat))

end Sys2Proof.Machine
end

