-- ==== Sys2Proof/Machine/Dispatch.lean ====
section
/-! DEFINITION. The meaning of each instruction, one arm per row of spec/opcode_table.json. -/

namespace Sys2Proof.Machine

def exec (i : Instr) (s : State) : Host.Outcome State Fault Refusal :=
  match i with
  | .crcStep acc byte => Sys2Proof.Machine.execCrcStep acc byte s
  | .crcCompute seed buf => Sys2Proof.Machine.execCrcCompute seed buf s
  | .crcVerify buf => Sys2Proof.Machine.execCrcVerify buf s
  | .crcAppend buf => Sys2Proof.Machine.execCrcAppend buf s
  | .crcTable index => Sys2Proof.Machine.execCrcTable index s
  | .frmDecode num den buf => Sys2Proof.Machine.execFrmDecode num den buf s
  | .fldExtract fmt offset buf => Sys2Proof.Machine.execFldExtract fmt offset buf s
  | .fldScale kind raw => Sys2Proof.Machine.execFldScale kind raw s
  | .fldTrend raw => Sys2Proof.Machine.execFldTrend raw s
  | .fldWinddir raw => Sys2Proof.Machine.execFldWinddir raw s
  | .fldRain clicks num den => Sys2Proof.Machine.execFldRain clicks num den s
  | .encCmd id params => Sys2Proof.Machine.execEncCmd id params s
  | .cmdInfo id => Sys2Proof.Machine.execCmdInfo id s
  | .encHex buf => Sys2Proof.Machine.execEncHex buf s
  | .encText text => Sys2Proof.Machine.execEncText text s
  | .datePack year month day => Sys2Proof.Machine.execDatePack year month day s
  | .dateUnpack packed => Sys2Proof.Machine.execDateUnpack packed s
  | .timePack hour minute => Sys2Proof.Machine.execTimePack hour minute s
  | .timeUnpack packed => Sys2Proof.Machine.execTimeUnpack packed s
  | .rspMatch id buf => Sys2Proof.Machine.execRspMatch id buf s
  | .rspInfo id => Sys2Proof.Machine.execRspInfo id s

end Sys2Proof.Machine
end

