-- ==== Sys2Proof/Machine/Step.lean ====
section
/-! DEFINITION. One step of the block with its host (spec/00_scope.md R11, 20_memory.md R56, 30_encoding.md R62,
70_reset_and_hazards.md R230): with no request in flight the host has its turn; with one in flight, a reset aborts it,
and else the block decodes it and answers it. -/

namespace Sys2Proof.Machine

/-- One step. -/
def step (s : State) : Host.Outcome State Fault Refusal :=
  match s.inFlight with
  | none => .next (hostTurn s)
  | some r =>
    if resetNow s then .next (applyReset s)
    else
      match decode r with
      | .error cause => answer s (raiseIllegal cause)
      | .ok i => exec i s

/-- The state in which the next step fetches the one-word instruction `w`: the request is in flight and the host waits
for its response, so that no reset of the host's comes first (log 8). -/
def State.withFetchWord (s : State) (nbits w : Nat) : State :=
  placeRequest s (tableRequest nbits w)

end Sys2Proof.Machine
end

