-- ==== Sys2Proof/Machine/Assembler.lean ====
section
/-! DEFINITION. The assembler syntax and the pseudo-instructions (spec/30_encoding.md R73 to R75): a line of text to the
instruction it writes. What the rules leave open about the text (blanks between tokens, escapes they do not name) is
log 14. -/

namespace Sys2Proof.Machine

/-- One character of a quoted string (R74): written as itself, or as the byte of an escape. -/
inductive StrItem where
  | lit (c : Char)
  | esc (b : Byte)
  deriving DecidableEq, Repr

/-- The tokens of a line. A word is a run of letters, digits, full stops, colons and underscores. -/
inductive Tok where
  | comma
  | hash
  | lbrack
  | rbrack
  | word (w : List Char)
  | str (items : List StrItem)
  deriving DecidableEq, Repr

/-- The value of a hexadecimal digit of a number or an escape, in either case. -/
def hexDigit (c : Char) : Option Nat :=
  if c.val < 128 then (hexVal (BitVec.ofNat 8 c.toNat)).map BitVec.toNat else none

/-- The number a run of digits stands for in a base of at most 16; `none` for a character that is no digit of it. -/
def digitsValue (base : Nat) : Nat → List Char → Option Nat
  | acc, [] => some acc
  | acc, c :: rest =>
    match hexDigit c with
    | none => none
    | some d => if d < base then digitsValue base (acc * base + d) rest else none

/-- A scalar "in decimal or with a `0x` prefix" (R73). -/
def scalarOfWord : List Char → Option Nat
  | [] => none
  | '0' :: 'x' :: c :: rest => digitsValue 16 0 (c :: rest)
  | w => digitsValue 10 0 w

/-- A quoted string after its opening quote, with the escapes of R74, and what follows its closing quote. -/
def lexString : List Char → Option (List StrItem × List Char)
  | [] => none
  | '\\' :: 'n' :: rest => (lexString rest).map fun p => (.esc 0x0A :: p.1, p.2)
  | '\\' :: 'r' :: rest => (lexString rest).map fun p => (.esc 0x0D :: p.1, p.2)
  | '\\' :: 'x' :: hi :: lo :: rest =>
    match hexDigit hi, hexDigit lo with
    | some h, some l => (lexString rest).map fun p => (.esc (BitVec.ofNat 8 (h * 16 + l)) :: p.1, p.2)
    | _, _ => none
  | c :: rest =>
    if c.toNat = 0x22 then some ([], rest)
    else if c = '\\' then none
    else (lexString rest).map fun p => (.lit c :: p.1, p.2)

/-- A character of a word. -/
def isWordChar (c : Char) : Bool :=
  c.isAlphanum || c == '_' || c == '.' || c == ':'

/-- The tokens of a line; `fuel` bounds their number. -/
def lexLine : Nat → List Char → Option (List Tok)
  | _, [] => some []
  | 0, _ :: _ => none
  | fuel + 1, c :: rest =>
    if c = ' ' then lexLine fuel rest
    else if c = ',' then (lexLine fuel rest).map (Tok.comma :: ·)
    else if c = '#' then (lexLine fuel rest).map (Tok.hash :: ·)
    else if c = '[' then (lexLine fuel rest).map (Tok.lbrack :: ·)
    else if c = ']' then (lexLine fuel rest).map (Tok.rbrack :: ·)
    else if c.toNat = 0x22 then
      match lexString rest with
      | none => none
      | some (items, after) => (lexLine fuel after).map (Tok.str items :: ·)
    else if isWordChar c then
      (lexLine fuel (rest.dropWhile isWordChar)).map (Tok.word (c :: rest.takeWhile isWordChar) :: ·)
    else none

/-- An operand of a line (R73, R74). -/
inductive Operand where
  | num (n : Nat)
  | id (n : Nat)
  | name (s : String)
  | str (items : List StrItem)
  | bytes (b : Bytes)
  deriving DecidableEq, Repr

/-- A byte of a bracketed list (R74). -/
def byteOfWord (w : List Char) : Option Byte :=
  match scalarOfWord w with
  | some n => if n < 256 then some (BitVec.ofNat 8 n) else none
  | none => none

/-- A bracketed list of bytes (R74) from its first byte on, and what follows its closing bracket. -/
def parseBytes : List Tok → Option (Bytes × List Tok)
  | .word w :: .rbrack :: rest => (byteOfWord w).map fun b => ([b], rest)
  | .word w :: .comma :: rest =>
    match byteOfWord w, parseBytes rest with
    | some b, some (bs, after) => some (b :: bs, after)
    | _, _ => none
  | _ => none

/-- An operand written as one word: a number, `frame:<name>`, or a symbolic name (R74, R75). -/
def wordOperand (frames : List (String × Bytes)) (w : List Char) : Option Operand :=
  if "frame:".toList.isPrefixOf w then (frames.lookup (String.ofList (w.drop 6))).map .bytes
  else if (w.head?.map Char.isDigit).getD false then (scalarOfWord w).map .num
  else some (.name (String.ofList w))

/-- The first operand of a token list, and what follows it. -/
def parseOperand (frames : List (String × Bytes)) : List Tok → Option (Operand × List Tok)
  | .str items :: rest => some (.str items, rest)
  | .hash :: .word w :: rest => (scalarOfWord w).map fun n => (.id n, rest)
  | .lbrack :: .rbrack :: rest => some (.bytes [], rest)
  | .lbrack :: rest => (parseBytes rest).map fun p => (.bytes p.1, p.2)
  | .word w :: rest => (wordOperand frames w).map fun o => (o, rest)
  | _ => none

/-- Operands "separated by commas" (R73), at least one; `fuel` bounds their number. -/
def parseOperands (frames : List (String × Bytes)) : Nat → List Tok → Option (List Operand)
  | 0, _ => none
  | fuel + 1, toks =>
    match parseOperand frames toks with
    | none => none
    | some (o, []) => some [o]
    | some (o, .comma :: rest) => (parseOperands frames fuel rest).map (o :: ·)
    | some (_, _ :: _) => none

/-- A scalar operand: an unsigned 32-bit value (R69). -/
def Operand.scalar? : Operand → Option Word32
  | .num n => if n < 2 ^ 32 then some (BitVec.ofNat 32 n) else none
  | _ => none

/-- A string as a buffer: "a quoted ASCII string" with its escapes (R74). -/
def bytesOfString : List StrItem → Option Bytes
  | [] => some []
  | .esc b :: rest => (bytesOfString rest).map (b :: ·)
  | .lit c :: rest => if c.toNat < 128 then (bytesOfString rest).map (BitVec.ofNat 8 c.toNat :: ·) else none

/-- A buffer operand (R74). -/
def Operand.buffer? : Operand → Option Bytes
  | .str items => bytesOfString items
  | .bytes b => some b
  | _ => none

/-- The code point of a string item: "In `enc.text`, the string is a sequence of code points" (R74). -/
def StrItem.codePoint : StrItem → CodePoint
  | .lit c => Fin.ofNat 0x110000 c.toNat
  | .esc b => Fin.ofNat 0x110000 b.toNat

/-- A text operand (R74). -/
def Operand.text? : Operand → Option Text
  | .str items => some (items.map StrItem.codePoint)
  | _ => none

/-- The place of a name in a table, as a `SEL` byte (R75). -/
def idOfName (names : List String) (name : String) : Option Byte :=
  match names.findIdx? (· == name) with
  | some i => if i < 256 then some (BitVec.ofNat 8 i) else none
  | none => none

/-- A table id, written `#id` or as a name of the table (R73, R75). "An unknown name is an assembly error." -/
def Operand.tableId? (names : List String) : Operand → Option Byte
  | .id n => if n < 256 then some (BitVec.ofNat 8 n) else none
  | .name s => idOfName names s
  | _ => none

/-- An instruction over one optional trailing buffer: "an omitted buffer operand is `[]`" (R74). -/
def withBuffer (mk : Bytes → Instr) : List Operand → Option Instr
  | [] => some (mk [])
  | [b] => b.buffer?.map mk
  | _ => none

/-- An instruction over one scalar. -/
def withScalar (mk : Word32 → Instr) : List Operand → Option Instr
  | [a] => a.scalar?.map mk
  | _ => none

/-- An instruction over two scalars. -/
def withScalars2 (mk : Word32 → Word32 → Instr) : List Operand → Option Instr
  | [a, b] =>
    match a.scalar?, b.scalar? with
    | some x, some y => some (mk x y)
    | _, _ => none
  | _ => none

/-- An instruction over three scalars. -/
def withScalars3 (mk : Word32 → Word32 → Word32 → Instr) : List Operand → Option Instr
  | [a, b, c] =>
    match a.scalar?, b.scalar?, c.scalar? with
    | some x, some y, some z => some (mk x y z)
    | _, _, _ => none
  | _ => none

/-- `crc.compute seed, buf`, or the pseudo-instruction `crc.compute buf` with seed 0 (R75). -/
def asmCrcCompute : List Operand → Option Instr
  | [] => some (.crcCompute 0 [])
  | a :: rest =>
    match a.scalar? with
    | some seed => withBuffer (.crcCompute seed) rest
    | none => withBuffer (.crcCompute 0) (a :: rest)

/-- `frm.decode buf, num, den`: "the ratio has no default and must be written" (R75). -/
def asmFrmDecode : List Operand → Option Instr
  | [b, n, d] =>
    match b.buffer?, n.scalar?, d.scalar? with
    | some buf, some num, some den => some (.frmDecode num den buf)
    | _, _, _ => none
  | _ => none

/-- `fld.extract.<fmt> buf, offset` (R73). -/
def asmFldExtract (fmt : FieldFormat) : List Operand → Option Instr
  | [b, o] =>
    match b.buffer?, o.scalar? with
    | some buf, some off => some (.fldExtract fmt off buf)
    | _, _ => none
  | _ => none

/-- An instruction over a table id alone. -/
def withId (names : List String) (mk : Byte → Instr) : List Operand → Option Instr
  | [a] => (a.tableId? names).map mk
  | _ => none

/-- An instruction over a table id and an optional trailing buffer. -/
def withIdBuffer (names : List String) (mk : Byte → Bytes → Instr) : List Operand → Option Instr
  | a :: rest =>
    match a.tableId? names with
    | some id => withBuffer (mk id) rest
    | none => none
  | [] => none

/-- `enc.text "text"` (R73). With no operand it is an assembly error: R74 speaks of an omitted buffer operand, and the
model does not count the text as one (DESIGN CHOICE, log 14). -/
def asmEncText : List Operand → Option Instr
  | [a] => a.text?.map .encText
  | _ => none

/-- What a line writes: one request, or the two of `enc.cmdcrc` (R75), of which this is the first. -/
inductive AsmLine where
  | one (i : Instr)
  | cmdCrc (i : Instr)
  deriving DecidableEq, Repr

/-- The mnemonics of the checksum operations (R73). -/
def asmChecksum (m : String) (ops : List Operand) : Option Instr :=
  match m with
  | "crc.step" => withScalars2 .crcStep ops
  | "crc.compute" => asmCrcCompute ops
  | "crc.verify" => withBuffer .crcVerify ops
  | "crc.append" => withBuffer .crcAppend ops
  | "crc.table" => withScalar .crcTable ops
  | _ => none

/-- The mnemonics of the frame and field operations (R73). -/
def asmFrame (m : String) (ops : List Operand) : Option Instr :=
  match m with
  | "frm.decode" => asmFrmDecode ops
  | "fld.extract.u8" => asmFldExtract ⟨false, false, false⟩ ops
  | "fld.extract.s8" => asmFldExtract ⟨false, true, false⟩ ops
  | "fld.extract.u16le" => asmFldExtract ⟨true, false, false⟩ ops
  | "fld.extract.s16le" => asmFldExtract ⟨true, true, false⟩ ops
  | "fld.extract.u16be" => asmFldExtract ⟨true, false, true⟩ ops
  | "fld.extract.s16be" => asmFldExtract ⟨true, true, true⟩ ops
  | "fld.scale.id" => withScalar (.fldScale .identity) ops
  | "fld.scale.tenths" => withScalar (.fldScale .tenths) ops
  | "fld.scale.hundredths" => withScalar (.fldScale .hundredths) ops
  | "fld.scale.thousandths" => withScalar (.fldScale .thousandths) ops
  | "fld.trend" => withScalar .fldTrend ops
  | "fld.winddir" => withScalar .fldWinddir ops
  | "fld.rain" => withScalars3 .fldRain ops
  | _ => none

/-- The mnemonics of the command encoder (R73), with the names of the instance's tables (R75). -/
def asmEncoder (cfg : Config) (m : String) (ops : List Operand) : Option Instr :=
  let cmds := cfg.cmdTable.map (·.name)
  let tokens := cfg.tokenTable.map (·.name)
  match m with
  | "enc.cmd" => withIdBuffer cmds .encCmd ops
  | "cmd.info" => withId cmds .cmdInfo ops
  | "enc.hex" => withBuffer .encHex ops
  | "enc.text" => asmEncText ops
  | "date.pack" => withScalars3 .datePack ops
  | "date.unpack" => withScalar .dateUnpack ops
  | "time.pack" => withScalars2 .timePack ops
  | "time.unpack" => withScalar .timeUnpack ops
  | "rsp.match" => withIdBuffer tokens .rspMatch ops
  | "rsp.info" => withId tokens .rspInfo ops
  | _ => none

/-- A mnemonic with its operands (R73, R75). `enc.cmdcrc` takes `#id` as well as the `NAME` that R75 gives it, as
`enc.cmd` does (DESIGN CHOICE, log 14). -/
def asmInstr (cfg : Config) (m : String) (ops : List Operand) : Option AsmLine :=
  match m with
  | "enc.cmdcrc" => (withIdBuffer (cfg.cmdTable.map (·.name)) .encCmd ops).map .cmdCrc
  | _ => ((asmChecksum m ops).or ((asmFrame m ops).or (asmEncoder cfg m ops))).map .one

/-- A line of assembler text (R73); `none` is an assembly error. `frames` gives the buffers of `frame:<name>` (R74). -/
def assemble (cfg : Config) (frames : List (String × Bytes)) (line : String) : Option AsmLine :=
  match lexLine (line.toList.length + 1) line.toList with
  | some [.word m] => asmInstr cfg (String.ofList m) []
  | some (.word m :: toks) =>
    match parseOperands frames (toks.length + 1) toks with
    | some ops => asmInstr cfg (String.ofList m) ops
    | none => none
  | _ => none

/-- The second request of `enc.cmdcrc` (R75): `crc.append` of the first one's `dout`; "if the first returns an error,
the second is not issued". -/
def cmdCrcSecond (first : Response) : Option Instr :=
  if first.status = 0x00 then first.dout.map .crcAppend else none

end Sys2Proof.Machine
end

