-- ==== Sys2Proof/Safety.lean ====
section
/-! DEFINITION. The terms claims use: the state after an answer, legal responses and records (spec/60_exceptions.md
R200, R201, 42_frame_parser.md R131), the invariant of a run, the tables of 30_encoding.md R64 to R68 restated for
claims, and the checksum, the field values and the digits written a second time on natural numbers. -/

namespace Sys2Proof.Safety

open Sys2Proof.Machine

/-- The state after the request in flight has been answered with `r` and nothing else has changed: "it writes only the
response" (00_scope.md R11). -/
def answered (s : State) (r : Response) : State :=
  { s with inFlight := none, responses := s.responses ++ [r] }

/-- The error codes of R200 with the information fields each records: `r0`, `r1`, `r2`. -/
def errorInfo : List (Byte × Bool × Bool × Bool) :=
  [(0x01, true, false, false), (0x02, true, false, false), (0x03, true, false, false), (0x04, true, false, true),
   (0x05, true, false, true), (0x10, true, false, false), (0x11, true, true, true), (0x20, true, false, false),
   (0x21, true, false, false), (0x22, true, false, false), (0xFF, true, false, false)]

/-- An error response as R200 and R201 allow it: its code and its information fields, no `rq`, `dout` or `rec`. -/
def LegalError (r : Response) : Prop :=
  (r.status, r.r0.isSome, r.r1.isSome, r.r2.isSome) ∈ errorInfo ∧ r.rq = none ∧ r.dout = none ∧ r.record = none

/-- A direction in [1, 360] degrees when present (42_frame_parser.md R131). -/
def LegalDirection (d : Option Word16) : Prop :=
  ∀ w, d = some w → 1 ≤ w.toNat ∧ w.toNat ≤ 360

/-- A record as R131 allows it: directions in [1, 360], the trend an index into `TREND_TABLE`. -/
def LegalRecord (cfg : Config) (rec : Loop2Record) : Prop :=
  LegalDirection rec.windDir ∧ LegalDirection rec.gustDir ∧ ∀ i, rec.barTrend = some i → i < cfg.trendTable.length

/-- A response the block may return: a success, with a legal record if it has one, or a legal error; "all other status
values are never returned" (R200). -/
def LegalResponse (cfg : Config) (r : Response) : Prop :=
  (r.status = 0x00 ∧ ∀ rec, r.record = some rec → LegalRecord cfg rec) ∨ LegalError r

/-- The invariant of a run: well-formed parameters (70_reset_and_hazards.md R234) and legal responses only. -/
structure Inv (s : State) : Prop where
  cfg : s.cfg.WF
  responses : ∀ r ∈ s.responses, LegalResponse s.cfg r

/-- The response a request gets alone (20_memory.md R52): from a state with nothing else in it. -/
def responseAlone (cfg : Config) (r : Request) : Option Response :=
  match step { cfg := cfg, inFlight := some r, host := [], responses := [] } with
  | .next t => t.responses.head?
  | _ => none

/-- The host issues a list of requests, one after another (70_reset_and_hazards.md R235). -/
def issueAll (requests : List Request) : List HostEvent :=
  requests.map .issue

/-- The error codes each operation may raise (R200, "raised by"), the length bound of 20_memory.md R41 counted for the
operations with a buffer. -/
def mayRaise : Instr → List Byte
  | .crcStep _ _ | .crcCompute _ _ | .crcVerify _ | .crcAppend _ | .crcTable _ => [0x22]
  | .frmDecode _ _ _ => [0x10, 0x11, 0x22]
  | .fldExtract _ _ _ | .fldTrend _ | .fldWinddir _ | .fldRain _ _ _ => [0x22]
  | .fldScale _ _ => []
  | .encCmd _ _ => [0x01, 0x02, 0x21, 0x22]
  | .cmdInfo _ | .rspInfo _ => [0x21]
  | .encHex _ => [0x03, 0x04, 0x22]
  | .encText _ => [0x05, 0x22]
  | .datePack _ _ _ | .timePack _ _ => [0x20]
  | .dateUnpack _ | .timeUnpack _ => [0x20, 0x22]
  | .rspMatch _ _ => [0x21, 0x22]

/-- The `OP` values of the opcode map (30_encoding.md R64). -/
def opCodes : List Byte :=
  [0x01, 0x02, 0x03, 0x04, 0x05, 0x10, 0x11, 0x12, 0x13, 0x14, 0x15, 0x20, 0x21, 0x22, 0x23, 0x24, 0x25, 0x26, 0x27,
   0x28, 0x29]

/-- The `SEL` values legal for an `OP` of the map (R64, R66 to R68). -/
def selLegal (op sel : Byte) : Prop :=
  if op = 0x11 then sel ∈ [0x00, 0x02, 0x01, 0x03, 0x05, 0x07]
  else if op = 0x12 then sel.toNat < 4
  else if op ∈ [0x20, 0x21, 0x28, 0x29] then True
  else sel = 0x00

/-- Every request field that an `OP` of the map does not use is neutral: the columns of R65. -/
def unusedNeutral (op : Byte) (r : Request) : Prop :=
  (op ∉ [0x01, 0x02, 0x05, 0x10, 0x11, 0x12, 0x13, 0x14, 0x15, 0x24, 0x25, 0x26, 0x27] → r.s0 = 0) ∧
  (op ∉ [0x01, 0x10, 0x15, 0x24, 0x26] → r.s1 = 0) ∧
  (op ∉ [0x15, 0x24] → r.s2 = 0) ∧
  (op ∉ [0x02, 0x03, 0x04, 0x10, 0x11, 0x20, 0x22, 0x28] → r.din = []) ∧
  (op ∉ [0x23] → r.dtext = [])

/-- The checksum on natural numbers (41_checksum.md R100, R101): the accumulator is masked to 16 bits, the index to
8 bits. -/
def crcOver (t : Vector Word16 256) : Nat → Bytes → Nat
  | acc, [] => acc
  | acc, b :: rest =>
    crcOver t ((t[(acc / 256 ^^^ b.toNat) % 256]'(Nat.mod_lt _ (by omega))).toNat ^^^ (acc * 256 % 2 ^ 16)) rest

/-- An unsigned field of `w` bytes at an offset inside a buffer, little-endian or big-endian (20_memory.md R42, R43). -/
def fieldNat (b : Bytes) (o : Nat) (w : Width) (big : Bool) (h : o + w.bytes ≤ b.length) : Nat :=
  match w, h with
  | .one, h => (b[o]'(by simp only [Width.bytes] at h; omega)).toNat
  | .two, h =>
    let lo := (b[o]'(by simp only [Width.bytes] at h; omega)).toNat
    let hi := (b[o + 1]'(by simp only [Width.bytes] at h; omega)).toNat
    if big then lo * 256 + hi else hi * 256 + lo

/-- `sext_(8*w)` of an unsigned field (00_scope.md R9), or the field itself. -/
def signedInt (w : Width) (signed : Bool) (raw : Nat) : Int :=
  if signed = true ∧ 2 ^ (8 * w.bytes - 1) ≤ raw then (raw : Int) - 2 ^ (8 * w.bytes) else raw

/-- `sext_32` of a scalar (R9). -/
def signedScalar (w : Word32) : Int :=
  if w.toNat < 2 ^ 31 then w.toNat else (w.toNat : Int) - 2 ^ 32

/-- The value of a hex digit (43_command_encoder.md section 3): its place in one of the two digit strings. -/
def hexDigitValue (c : Byte) : Option Nat :=
  let upper : Bytes := [0x30, 0x31, 0x32, 0x33, 0x34, 0x35, 0x36, 0x37, 0x38, 0x39, 0x41, 0x42, 0x43, 0x44, 0x45, 0x46]
  let lower : Bytes := [0x30, 0x31, 0x32, 0x33, 0x34, 0x35, 0x36, 0x37, 0x38, 0x39, 0x61, 0x62, 0x63, 0x64, 0x65, 0x66]
  (upper.idxOf? c).or (lower.idxOf? c)

/-- A scaled attribute of a record. -/
def scaledOf (rec : Loop2Record) : ScaledAttr → Option Rat
  | .barometer => rec.barometer
  | .insideTemp => rec.insideTemp
  | .outsideTemp => rec.outsideTemp
  | .insideHum => rec.insideHum
  | .outsideHum => rec.outsideHum
  | .windSpeed => rec.windSpeed
  | .windAvg10 => rec.windAvg10
  | .windAvg2 => rec.windAvg2
  | .windGust10 => rec.windGust10
  | .dewPoint => rec.dewPoint
  | .heatIndex => rec.heatIndex
  | .windChill => rec.windChill
  | .thsw => rec.thsw
  | .uv => rec.uv
  | .solar => rec.solar
  | .dailyEt => rec.dailyEt
  | .minuteInHour => rec.minuteInHour

/-- A direction of a record. -/
def windOf (rec : Loop2Record) : WindAttr → Option Word16
  | .windDir => rec.windDir
  | .gustDir => rec.gustDir

/-- A rain attribute of a record. -/
def rainOf (rec : Loop2Record) : RainAttr → Option Rat
  | .rainRate => rec.rainRate
  | .stormRain => rec.stormRain
  | .dailyRain => rec.dailyRain
  | .rain15min => rec.rain15min
  | .rain1h => rec.rain1h
  | .rain24h => rec.rain24h

/-- The exponent `k` of a scale kind (R67, 42_frame_parser.md R139). -/
def decimals : ScaleKind → Nat
  | .identity => 0
  | .tenths => 1
  | .hundredths => 2
  | .thousandths => 3

/-- What a value field's attribute holds when its value is `x` (R139 to R142). -/
def AttributeIs (cfg : Config) (num den : Word32) (rec : Loop2Record) (t : Target) (x : Int) : Prop :=
  match t with
  | .scaled a k => scaledOf rec a = some ((x : Rat) / 10 ^ decimals k)
  | .winddir a => windOf rec a = if 1 ≤ x ∧ x ≤ 360 then some (BitVec.ofInt 16 x) else none
  | .rain a => rainOf rec a = some ((x : Rat) * num.toNat / den.toNat)
  | .trend => ∀ i, rec.barTrend = some i ↔ (cfg.trendTable[i]?.map (·.code)) = some x

/-- A value field's attribute is absent. -/
def AttributeAbsent (rec : Loop2Record) (t : Target) : Prop :=
  match t with
  | .scaled a _ => scaledOf rec a = none
  | .winddir a => windOf rec a = none
  | .rain a => rainOf rec a = none
  | .trend => rec.barTrend = none

/-- The number of elements of the buffer an instruction reads, for the operations the bound of 20_memory.md R41 covers:
all with a buffer or a text but FRM.DECODE. -/
def boundedLength : Instr → Option Nat
  | .crcCompute _ buf | .crcVerify buf | .crcAppend buf | .encHex buf => some buf.length
  | .fldExtract _ _ buf => some buf.length
  | .encCmd _ params => some params.length
  | .encText text => some text.length
  | .rspMatch _ buf => some buf.length
  | .frmDecode _ _ _ | .crcStep _ _ | .crcTable _ | .fldScale _ _ | .fldTrend _ | .fldWinddir _ | .fldRain _ _ _
  | .cmdInfo _ | .datePack _ _ _ | .dateUnpack _ | .timePack _ _ | .timeUnpack _ | .rspInfo _ => none

/-- A setting of `TEXT_HIGH` can encode a code point (43_command_encoder.md R170). -/
def CanEncode (high : TextHigh) (c : CodePoint) : Prop :=
  c.val ≤ 0x7F ∨
    match high with
    | .latin1 => c.val ≤ 0xFF
    | .utf8 => ¬ (0xD800 ≤ c.val ∧ c.val ≤ 0xDFFF)
    | .refuse => False

/-- The code point of a character. -/
def pointOf (c : Char) : CodePoint :=
  Fin.ofNat 0x110000 c.toNat

/-- Two command tables that differ in their destructive marks alone (43_command_encoder.md R162). -/
def SameButMarks (a b : List CmdEntry) : Prop :=
  a.map (fun e => (e.name, e.template, e.isComplete)) = b.map (fun e => (e.name, e.template, e.isComplete))

end Sys2Proof.Safety
end

