-- ==== Sys2Proof/Certificates/Slice0/Obligations.lean ====
section
/-! DEFINITION. The statements for the provers. `answered s r` (Safety.lean) is the state `s` with the request in flight
answered by `r`: parameters, host events and earlier responses as they were, so each result below states its frame too. A
response is written with the fields it sets; the others are absent. A statement that gives the
whole rule of an operation begins with its command word (30_encoding.md R64). -/

open Sys2Proof Sys2Proof.Machine Sys2Proof.Safety

/-! ## The machine as a whole -/

/-- The model's initial state (10_state.md R33; the two OPEN parameters of log 2 and the model's own fields of log 3 and
log 6 included) has nothing in flight and meets the invariant of a run. -/
def Obligations.ResetMeetsInvariant : Prop :=
  Inv State.reset ∧ State.reset.inFlight = none

/-- The invariant of a run (R234, R200, R201, R131): well-formed parameters and legal responses only. -/
def Obligations.InvariantKeptByEveryStep : Prop :=
  ∀ s t : State, Inv s → step s = .next t → Inv t

/-- 30_encoding.md R60, R62: a legal request in flight runs as the instruction it stands for; the step adds nothing. The
host event that could come first is a reset (log 4). -/
def Obligations.StepRunsDecodedInstruction : Prop :=
  ∀ (s : State) (r : Request) (i : Instr), s.inFlight = some r → s.host.head? ≠ some .reset → decode r = .ok i →
    step s = exec i s

/-- 10_state.md R32: every operation answers its request, with a response R200, R201 and R131 allow, and changes
nothing else. -/
def Obligations.EveryInstructionAnswers : Prop :=
  ∀ (i : Instr) (s : State), ∃ r, exec i s = .next (answered s r) ∧ LegalResponse s.cfg r

/-- R32, R240: no step stops. -/
def Obligations.EveryStepGoesOn : Prop :=
  ∀ s : State, ∃ t, step s = .next t

/-- 10_state.md R27: no operation, and nothing else a step does, writes a table or another parameter. -/
def Obligations.NoStepWritesTables : Prop :=
  ∀ s t : State, step s = .next t → t.cfg = s.cfg

/-- 20_memory.md R56: a step delivers at most one response, for the request in flight, and never changes one delivered
earlier. -/
def Obligations.AtMostOneResponsePerStep : Prop :=
  ∀ s t : State, step s = .next t →
    t.responses = s.responses ∨
      ((∃ r, s.inFlight = some r) ∧ t.inFlight = none ∧ ∃ p, t.responses = s.responses ++ [p])

/-- 10_state.md R32, 20_memory.md R52: equal requests get equal responses, whatever came before them and whatever the
host does after. -/
def Obligations.ResponseIndependentOfHistory : Prop :=
  ∀ (s t : State) (r : Request), s.cfg = t.cfg → s.inFlight = some r → t.inFlight = some r →
    s.host.head? ≠ some .reset → t.host.head? ≠ some .reset →
    ∃ p, responseAlone s.cfg r = some p ∧ step s = .next (answered s p) ∧ step t = .next (answered t p)

/-- 70_reset_and_hazards.md R235, 20_memory.md R56: the requests of a list are answered one after another, in their
order, each by the response it gets alone. That a request takes two steps is the model's choice (log 3). -/
def Obligations.RequestsAnsweredInOrder : Prop :=
  ∀ (s : State) (requests : List Request), s.inFlight = none → s.host = issueAll requests →
    ∃ responses : List Response, requests.map (responseAlone s.cfg) = responses.map some ∧
      Host.Core.run Sys2Proof.core (2 * requests.length) s
        = .next ({ s with host := [], responses := s.responses ++ responses } : State)

/-- 70_reset_and_hazards.md R230: reset aborts the request in flight, delivers no response for it and changes nothing
else; a request issued after it is accepted at once. -/
def Obligations.ResetAbortsUnfinishedRequest : Prop :=
  ∀ (s : State) (rest : List HostEvent), s.host = .reset :: rest →
    step s = .next { s with inFlight := none, host := rest } ∧
    ∀ q after, rest = .issue q :: after →
      step { s with inFlight := none, host := rest } = .next { s with inFlight := some q, host := after }

/-- The host's turn (the model's choice, log 3, log 7): an idle block accepts the next request, passes over a wait, and
changes nothing when nothing is to come. -/
def Obligations.HostTurnOfIdleBlock : Prop :=
  ∀ s : State, s.inFlight = none →
    (s.host = [] → step s = .next s) ∧
    (∀ r rest, s.host = .issue r :: rest → step s = .next { s with inFlight := some r, host := rest }) ∧
    (∀ rest, s.host = .wait :: rest → step s = .next { s with host := rest })

/-- R62, R70: an illegal request is answered with `E_ILLEGAL` and the first cause in the order `OP`, `RSV`, `SEL`, unused
field, and has no other effect. -/
def Obligations.IllegalRequestFirstCause : Prop :=
  ∀ (s : State) (r : Request), s.inFlight = some r → s.host.head? ≠ some .reset →
    let op : Byte := r.cmd.extractLsb' 0 8
    let sel : Byte := r.cmd.extractLsb' 8 8
    let rsv : Word16 := r.cmd.extractLsb' 16 16
    (op ∉ opCodes → step s = .next (answered s { status := 0xFF, r0 := some 0 })) ∧
    (op ∈ opCodes → rsv ≠ 0 → step s = .next (answered s { status := 0xFF, r0 := some 1 })) ∧
    (op ∈ opCodes → rsv = 0 → ¬ selLegal op sel → step s = .next (answered s { status := 0xFF, r0 := some 2 })) ∧
    (op ∈ opCodes → rsv = 0 → selLegal op sel → ¬ unusedNeutral op r →
      step s = .next (answered s { status := 0xFF, r0 := some 3 }))

/-- R200, the column "raised by": an operation raises no other error. -/
def Obligations.ErrorsRaisedOnlyWhereListed : Prop :=
  ∀ (i : Instr) (s : State) (r : Response), exec i s = .next (answered s r) → r.status = 0x00 ∨ r.status ∈ mayRaise i

/-- 20_memory.md R41, 60_exceptions.md R203: a buffer or a text longer than `MAX_DIN` is answered with
`E_OPERAND(r0 = 0)`, whatever else is wrong with the request; but FRM.DECODE reports every length that is not 99. -/
def Obligations.LongBufferRefusedFirst : Prop :=
  ∀ (i : Instr) (s : State),
    (∀ n, boundedLength i = some n → s.cfg.maxDin < n →
      exec i s = .next (answered s { status := 0x22, r0 := some 0 })) ∧
    (∀ num den din, i = .frmDecode num den din → din.length ≠ 99 →
      exec i s = .next (answered s { status := 0x10, r0 := some (BitVec.ofNat 32 (min din.length (2 ^ 32 - 1))) }))

/-! ## Encoding -/

/-- Decoding the request of a well-formed instruction gives it back, every operand at every value. -/
def Obligations.DecodeOfEncode : Prop :=
  ∀ i : Instr, i.WF → decode (encode i) = .ok i

/-- A request that decodes is the request of the instruction it decodes to, and that instruction is well-formed: every
legal request has one meaning (92 D22). -/
def Obligations.EncodeOfDecode : Prop :=
  ∀ (r : Request) (i : Instr), decode r = .ok i → i.WF ∧ encode i = r

/-- R62, R64 to R68: a request is legal exactly when its `OP` is in the map, `RSV` is 0, `SEL` is legal for the operation
and every unused field is neutral. -/
def Obligations.LegalRequestsDecode : Prop :=
  ∀ r : Request,
    (∃ i, decode r = .ok i) ↔
      (r.cmd.extractLsb' 0 8 : Byte) ∈ opCodes ∧ (r.cmd.extractLsb' 16 16 : Word16) = 0 ∧
        selLegal (r.cmd.extractLsb' 0 8) (r.cmd.extractLsb' 8 8) ∧ unusedNeutral (r.cmd.extractLsb' 0 8) r

/-- R73: command words of the three families, read from the spec's table. -/
def Obligations.SpecWordsDecode : Prop :=
  decodeTableWord 32 0x00000001 = some (.crcStep 0 0) ∧
  decodeTableWord 32 0x00000311 = some (.fldExtract ⟨true, true, false⟩ 0 []) ∧
  decodeTableWord 32 0x00000312 = some (.fldScale .thousandths 0) ∧
  decodeTableWord 32 0x00000320 = some (.encCmd 3 []) ∧
  decodeTableWord 32 0x00000029 = some (.rspInfo 0) ∧
  decodeTableWord 32 0x00010001 = none

/-! ## Checksum engine -/

/-- CRC.STEP (41_checksum.md R100). -/
def Obligations.CrcStepResult : Prop :=
  ∀ (s : State) (acc byte : Word32),
    encodeWord (.crcStep acc byte) = 0x00000001 ∧
    (2 ^ 16 ≤ acc.toNat → exec (.crcStep acc byte) s = .next (answered s { status := 0x22, r0 := some 1 })) ∧
    (acc.toNat < 2 ^ 16 → 2 ^ 8 ≤ byte.toNat →
      exec (.crcStep acc byte) s = .next (answered s { status := 0x22, r0 := some 2 })) ∧
    (acc.toNat < 2 ^ 16 → byte.toNat < 2 ^ 8 →
      exec (.crcStep acc byte) s = .next (answered s
        { status := 0x00, r0 := some (BitVec.ofNat 32 (crcOver s.cfg.crcTable acc.toNat [byte.setWidth 8])) }))

/-- CRC.COMPUTE (R101). -/
def Obligations.CrcComputeResult : Prop :=
  ∀ (s : State) (seed : Word32) (buf : Bytes),
    encodeWord (.crcCompute seed buf) = 0x00000002 ∧
    (buf.length ≤ s.cfg.maxDin →
      (2 ^ 16 ≤ seed.toNat → exec (.crcCompute seed buf) s = .next (answered s { status := 0x22, r0 := some 1 })) ∧
      (seed.toNat < 2 ^ 16 →
        exec (.crcCompute seed buf) s = .next (answered s
          { status := 0x00, r0 := some (BitVec.ofNat 32 (crcOver s.cfg.crcTable seed.toNat buf)) })))

/-- 70_reset_and_hazards.md R238: a buffer fed in two pieces, the first result the second seed, gives the checksum of
the whole. -/
def Obligations.CrcOfSplitBuffer : Prop :=
  ∀ (s : State) (seed : Word32) (a b : Bytes), seed.toNat < 2 ^ 16 → (a ++ b).length ≤ s.cfg.maxDin →
    ∃ c d, exec (.crcCompute seed a) s = .next (answered s { status := 0x00, r0 := some c }) ∧
      exec (.crcCompute c b) s = .next (answered s { status := 0x00, r0 := some d }) ∧
      exec (.crcCompute seed (a ++ b)) s = .next (answered s { status := 0x00, r0 := some d })

/-- CRC.VERIFY (R102). -/
def Obligations.CrcVerifyResult : Prop :=
  ∀ (s : State) (buf : Bytes),
    encodeWord (.crcVerify buf) = 0x00000003 ∧
    (buf.length ≤ s.cfg.maxDin →
      exec (.crcVerify buf) s = .next (answered s
        { status := 0x00, r0 := some (if crcOver s.cfg.crcTable 0 buf = 0 then 1 else 0) }))

/-- R107: leading zero bytes change no checksum of seed 0, and a buffer of zero bytes verifies. -/
def Obligations.LeadingZerosUndetected : Prop :=
  ∀ (s : State) (n : Nat) (d : Bytes), CrcTableWF s.cfg.crcTable → n + d.length ≤ s.cfg.maxDin →
    exec (.crcCompute 0 (List.replicate n 0 ++ d)) s = exec (.crcCompute 0 d) s ∧
    exec (.crcVerify (List.replicate n 0)) s = .next (answered s { status := 0x00, r0 := some 1 })

/-- CRC.APPEND (R103): the checksum in `r0` and, big-endian, after the buffer; and the appended buffer verifies. -/
def Obligations.CrcAppendThenVerify : Prop :=
  ∀ (s : State) (buf : Bytes),
    encodeWord (.crcAppend buf) = 0x00000004 ∧
    (buf.length ≤ s.cfg.maxDin →
      let c := crcOver s.cfg.crcTable 0 buf
      let out := buf ++ [BitVec.ofNat 8 (c / 256), BitVec.ofNat 8 c]
      exec (.crcAppend buf) s = .next (answered s
        { status := 0x00, r0 := some (BitVec.ofNat 32 c), dout := some out }) ∧
      (CrcTableWF s.cfg.crcTable → out.length ≤ s.cfg.maxDin →
        exec (.crcVerify out) s = .next (answered s { status := 0x00, r0 := some 1 })))

/-- R106: the checksum detects every single-bit error. -/
def Obligations.SingleBitErrorsDetected : Prop :=
  ∀ (s : State) (d : Bytes) (i k : Nat) (h : i < d.length), CrcTableWF s.cfg.crcTable → d.length ≤ s.cfg.maxDin →
    k < 8 → exec (.crcVerify d) s = .next (answered s { status := 0x00, r0 := some 1 }) →
    exec (.crcVerify (d.set i (d[i] ^^^ (1#8 <<< k)))) s = .next (answered s { status := 0x00, r0 := some 0 })

/-- CRC.TABLE (R104). -/
def Obligations.CrcTableResult : Prop :=
  ∀ (s : State) (index : Word32),
    encodeWord (.crcTable index) = 0x00000005 ∧
    (256 ≤ index.toNat → exec (.crcTable index) s = .next (answered s { status := 0x22, r0 := some 1 })) ∧
    (∀ h : index.toNat < 256, exec (.crcTable index) s = .next (answered s
      { status := 0x00, r0 := some (s.cfg.crcTable[index.toNat].setWidth 32) }))

/-- 10_state.md R22: the table CRC.TABLE reads is that of the polynomial 0x1021, and it is linear. -/
def Obligations.CrcTableIsLinear : Prop :=
  ∀ s : State, CrcTableWF s.cfg.crcTable →
    ∃ table : Byte → Word16,
      (∀ i, exec (.crcTable (i.setWidth 32)) s = .next (answered s
        { status := 0x00, r0 := some ((table i).setWidth 32) })) ∧
      table 0x00 = 0x0000 ∧ table 0x01 = 0x1021 ∧ table 0xFF = 0x1EF0 ∧
      ∀ i j, table (i ^^^ j) = table i ^^^ table j

/-! ## Frame parser and field extractor -/

/-- FRM.DECODE, the checks before the fixed fields (42_frame_parser.md R130, 20_memory.md R41): any length but 99 is
reported as such, whatever `MAX_DIN` is and whatever the ratio; then a zero denominator. -/
def Obligations.FrmDecodeChecksLengthThenRatio : Prop :=
  ∀ (s : State) (num den : Word32) (din : Bytes),
    encodeWord (.frmDecode num den din) = 0x00000010 ∧
    (din.length ≠ 99 → exec (.frmDecode num den din) s = .next (answered s
      { status := 0x10, r0 := some (BitVec.ofNat 32 (min din.length (2 ^ 32 - 1))) })) ∧
    (din.length = 99 → 99 ≤ s.cfg.maxDin → den = 0 →
      exec (.frmDecode num den din) s = .next (answered s { status := 0x22, r0 := some 2 }))

/-- R130 step 2, R123: the first fixed field, by ascending offset, that differs from its constant is reported with its
offset, expected and actual value, and no record is returned. -/
def Obligations.FrmDecodeReportsFirstFixedMismatch : Prop :=
  ∀ (s : State) (num den : Word32) (din : Bytes) (f : FixedField) (h : f.off + f.width.bytes ≤ din.length),
    s.cfg.WF → din.length = 99 → den ≠ 0 → f ∈ s.cfg.layout.fixed →
    fieldNat din f.off f.width false h ≠ f.value.toNat →
    (∀ g ∈ s.cfg.layout.fixed, g.off < f.off → ∀ h', fieldNat din g.off g.width false h' = g.value.toNat) →
    exec (.frmDecode num den din) s = .next (answered s
      { status := 0x11, r0 := some (BitVec.ofNat 32 f.off), r1 := some (f.value.setWidth 32),
        r2 := some (BitVec.ofNat 32 (fieldNat din f.off f.width false h)) })

/-- R130 steps 3 to 5, R144, R138 to R142: a frame whose fixed fields match always gives a record; its flag is the
checksum test over all 99 bytes, and each value field's attribute is absent at its sentinel and else holds its value. -/
def Obligations.FrmDecodeReturnsRecord : Prop :=
  ∀ (s : State) (num den : Word32) (din : Bytes), s.cfg.WF → din.length = 99 → den ≠ 0 →
    (∀ f ∈ s.cfg.layout.fixed, ∀ h, fieldNat din f.off f.width false h = f.value.toNat) →
    ∃ rec, exec (.frmDecode num den din) s = .next (answered s { status := 0x00, record := some rec }) ∧
      (rec.crcOk = true ↔ crcOver s.cfg.crcTable 0 din = 0) ∧
      ∀ v ∈ s.cfg.layout.values, ∀ h : v.off + v.width.bytes ≤ din.length,
        (v.sentinel.map (·.toNat) = some (fieldNat din v.off v.width false h) → AttributeAbsent rec v.target) ∧
        (v.sentinel.map (·.toNat) ≠ some (fieldNat din v.off v.width false h) →
          AttributeIs s.cfg num den rec v.target (signedInt v.width v.signed (fieldNat din v.off v.width false h)))

/-- 20_memory.md R51, R130: the first five bytes of the frames one instance accepts. They share their three tag bytes,
their byte 4 is 1, and byte 3 is the trend byte: a trend in the record is its signed value's place in the trend table. -/
def Obligations.AcceptedFramesShareTagAndType : Prop :=
  ∀ (s : State) (num den : Word32) (a : Bytes) (rec : Loop2Record), s.cfg.WF →
    exec (.frmDecode num den a) s = .next (answered s { status := 0x00, record := some rec }) →
    a[4]? = some 0x01 ∧
    (∀ i, rec.barTrend = some i →
      ∃ x, a[3]? = some x ∧ (s.cfg.trendTable[i]?.map (·.code)) = some (signedInt .one true x.toNat)) ∧
    ∀ (num' den' : Word32) (b : Bytes) (rec' : Loop2Record),
      exec (.frmDecode num' den' b) s = .next (answered s { status := 0x00, record := some rec' }) →
      ∀ i < 3, a[i]? = b[i]?

/-- R125: a byte that no field covers changes the checksum-valid flag at most. Two 99-byte frames that agree on every byte
of a field get responses that agree in everything else. -/
def Obligations.IgnoredBytesReachOnlyTheFlag : Prop :=
  ∀ (s : State) (num den : Word32) (a b : Bytes), s.cfg.WF → a.length = 99 → b.length = 99 →
    (∀ p ∈ s.cfg.layout.spans, ∀ i, p.1 ≤ i → i < p.1 + p.2 → a[i]? = b[i]?) →
    ∃ (r : Response) (x y : Bool),
      exec (.frmDecode num den a) s
        = .next (answered s { r with record := r.record.map (fun rec => { rec with crcOk := x }) }) ∧
      exec (.frmDecode num den b) s
        = .next (answered s { r with record := r.record.map (fun rec => { rec with crcOk := y }) })

/-- R132: reading a scaled field with FLD.EXTRACT, comparing `r1` with the sentinel and scaling `r0` with FLD.SCALE gives
the value FRM.DECODE gives. -/
def Obligations.ExtractAndScaleAgreeWithDecode : Prop :=
  ∀ (s : State) (num den : Word32) (din : Bytes) (rec : Loop2Record) (v : ValueField) (a : ScaledAttr) (k : ScaleKind),
    s.cfg.WF → exec (.frmDecode num den din) s = .next (answered s { status := 0x00, record := some rec }) →
    v ∈ s.cfg.layout.values → v.target = .scaled a k →
    ∃ x raw q, exec (.fldExtract ⟨v.width == .two, v.signed, false⟩ (BitVec.ofNat 32 v.off) din) s
        = .next (answered s { status := 0x00, r0 := some x, r1 := some raw }) ∧
      exec (.fldScale k x) s = .next (answered s { status := 0x00, rq := some q }) ∧
      (v.sentinel.map (·.setWidth 32) ≠ some raw → scaledOf rec a = some q)

/-- FLD.EXTRACT (R133): a field outside the buffer is refused; else `r1` is the raw field and `r0` its value as a 32-bit
two's complement pattern. -/
def Obligations.FldExtractResult : Prop :=
  ∀ (s : State) (fmt : FieldFormat) (offset : Word32) (din : Bytes),
    encodeWord (.fldExtract fmt offset din) = BitVec.ofNat 32 (0x11 + 0x100 *
      ((if fmt.wide then 1 else 0) + (if fmt.signed then 2 else 0) + (if fmt.bigEndian then 4 else 0))) ∧
    (din.length ≤ s.cfg.maxDin →
      let w : Width := if fmt.wide then .two else .one
      (din.length < offset.toNat + w.bytes →
        exec (.fldExtract fmt offset din) s = .next (answered s { status := 0x22, r0 := some 1 })) ∧
      (∀ h : offset.toNat + w.bytes ≤ din.length,
        exec (.fldExtract fmt offset din) s = .next (answered s
          { status := 0x00
            r0 := some (BitVec.ofInt 32 (signedInt w fmt.signed (fieldNat din offset.toNat w fmt.bigEndian h)))
            r1 := some (BitVec.ofNat 32 (fieldNat din offset.toNat w fmt.bigEndian h)) })))

/-- 20_memory.md R45: a 16-bit read is made of the two 8-bit reads, the low byte at the lower offset when it is
little-endian and at the higher offset when it is big-endian. -/
def Obligations.FldExtractMixedWidths : Prop :=
  ∀ (s : State) (o o' : Word32) (din : Bytes), din.length ≤ s.cfg.maxDin → o'.toNat = o.toNat + 1 →
    o.toNat + 2 ≤ din.length →
    ∃ lower upper : Word32, lower.toNat < 256 ∧ upper.toNat < 256 ∧
      exec (.fldExtract ⟨false, false, false⟩ o din) s
        = .next (answered s { status := 0x00, r0 := some lower, r1 := some lower }) ∧
      exec (.fldExtract ⟨false, false, false⟩ o' din) s
        = .next (answered s { status := 0x00, r0 := some upper, r1 := some upper }) ∧
      exec (.fldExtract ⟨true, false, false⟩ o din) s
        = .next (answered s
          { status := 0x00, r0 := some (upper * 256 + lower), r1 := some (upper * 256 + lower) }) ∧
      exec (.fldExtract ⟨true, false, true⟩ o din) s
        = .next (answered s
          { status := 0x00, r0 := some (lower * 256 + upper), r1 := some (lower * 256 + upper) })

/-- FLD.SCALE (R134, R139): the exact rational, of the scalar read as signed. -/
def Obligations.FldScaleResult : Prop :=
  ∀ (s : State) (kind : ScaleKind) (raw : Word32),
    encodeWord (.fldScale kind raw) = BitVec.ofNat 32 (0x12 + 0x100 * decimals kind) ∧
    exec (.fldScale kind raw) s = .next (answered s
      { status := 0x00, rq := some ((signedScalar raw : Rat) / 10 ^ decimals kind) })

/-- FLD.TREND (R135, R142): the index of the code in the trend table, or `r1 = 0` and no `r0` for an unknown code. -/
def Obligations.FldTrendResult : Prop :=
  ∀ (s : State) (raw : Word32),
    encodeWord (.fldTrend raw) = 0x00000013 ∧
    (TrendTableWF s.cfg.trendTable →
      (256 ≤ raw.toNat → exec (.fldTrend raw) s = .next (answered s { status := 0x22, r0 := some 1 })) ∧
      (raw.toNat < 256 → ∀ i e, s.cfg.trendTable[i]? = some e → e.code = signedInt .one true raw.toNat →
        exec (.fldTrend raw) s = .next (answered s
          { status := 0x00, r0 := some (BitVec.ofNat 32 i), r1 := some 1 })) ∧
      (raw.toNat < 256 → (∀ e ∈ s.cfg.trendTable, e.code ≠ signedInt .one true raw.toNat) →
        exec (.fldTrend raw) s = .next (answered s { status := 0x00, r1 := some 0 })))

/-- FLD.WINDDIR (R136, R140). -/
def Obligations.FldWinddirResult : Prop :=
  ∀ (s : State) (raw : Word32),
    encodeWord (.fldWinddir raw) = 0x00000014 ∧
    (2 ^ 16 ≤ raw.toNat → exec (.fldWinddir raw) s = .next (answered s { status := 0x22, r0 := some 1 })) ∧
    (1 ≤ raw.toNat ∧ raw.toNat ≤ 360 →
      exec (.fldWinddir raw) s = .next (answered s { status := 0x00, r0 := some raw, r1 := some 1 })) ∧
    (raw.toNat < 2 ^ 16 → ¬ (1 ≤ raw.toNat ∧ raw.toNat ≤ 360) →
      exec (.fldWinddir raw) s = .next (answered s { status := 0x00, r1 := some 0 }))

/-- FLD.RAIN (R137, R141). -/
def Obligations.FldRainResult : Prop :=
  ∀ (s : State) (clicks num den : Word32),
    encodeWord (.fldRain clicks num den) = 0x00000015 ∧
    (2 ^ 16 ≤ clicks.toNat →
      exec (.fldRain clicks num den) s = .next (answered s { status := 0x22, r0 := some 1 })) ∧
    (clicks.toNat < 2 ^ 16 → den = 0 →
      exec (.fldRain clicks num den) s = .next (answered s { status := 0x22, r0 := some 3 })) ∧
    (clicks.toNat < 2 ^ 16 → den ≠ 0 →
      exec (.fldRain clicks num den) s = .next (answered s
        { status := 0x00, rq := some ((clicks.toNat : Rat) * num.toNat / den.toNat) }))

/-! ## Command encoder -/

/-- ENC.CMD (43_command_encoder.md R163). -/
def Obligations.EncCmdResult : Prop :=
  ∀ (s : State) (id : Byte) (params : Bytes),
    encodeWord (.encCmd id params) = 0x00000020 ||| (id.setWidth 32 <<< 8) ∧
    (params.length ≤ s.cfg.maxDin →
      (s.cfg.cmdTable.length ≤ id.toNat →
        exec (.encCmd id params) s = .next (answered s { status := 0x21, r0 := some (id.setWidth 32) })) ∧
      (∀ e, s.cfg.cmdTable[id.toNat]? = some e →
        (e.isComplete = true → params ≠ [] →
          exec (.encCmd id params) s = .next (answered s { status := 0x01, r0 := some (id.setWidth 32) })) ∧
        (e.isComplete = false → params = [] →
          exec (.encCmd id params) s = .next (answered s { status := 0x02, r0 := some (id.setWidth 32) })) ∧
        ((e.isComplete = true ↔ params = []) →
          exec (.encCmd id params) s = .next (answered s { status := 0x00, dout := some (e.template ++ params) }))))

/-- R162: the destructive marks change no command's encoding. -/
def Obligations.DestructiveMarkChangesNoEncoding : Prop :=
  ∀ (s t : State) (id : Byte) (params : Bytes), SameButMarks s.cfg.cmdTable t.cfg.cmdTable →
    s.cfg.maxDin = t.cfg.maxDin →
    ∃ r, exec (.encCmd id params) s = .next (answered s r) ∧ exec (.encCmd id params) t = .next (answered t r)

/-- CMD.INFO (R164). A template longer than a 32-bit length has no stated `r1` (log 9). -/
def Obligations.CmdInfoResult : Prop :=
  ∀ (s : State) (id : Byte),
    encodeWord (.cmdInfo id) = 0x00000021 ||| (id.setWidth 32 <<< 8) ∧
    (s.cfg.cmdTable.length ≤ id.toNat →
      exec (.cmdInfo id) s = .next (answered s { status := 0x21, r0 := some (id.setWidth 32) })) ∧
    (∀ e, s.cfg.cmdTable[id.toNat]? = some e → e.template.length < 2 ^ 32 →
      exec (.cmdInfo id) s = .next (answered s
        { status := 0x00
          r0 := some (BitVec.ofNat 32 ((if e.isComplete then 1 else 0) + (if e.destructive then 2 else 0)))
          r1 := some (BitVec.ofNat 32 e.template.length)
          dout := some e.template }))

/-- ENC.HEX on a string of hex digits (R165): one byte per pair, the first digit the high one. -/
def Obligations.EncHexResult : Prop :=
  ∀ (s : State) (din : Bytes), din.length ≤ s.cfg.maxDin → din.length % 2 = 0 →
    (∀ c ∈ din, (hexDigitValue c).isSome) →
    ∃ out : Bytes, exec (.encHex din) s = .next (answered s { status := 0x00, dout := some out }) ∧
      out.length * 2 = din.length ∧
      ∀ (j hi lo : Nat), (din[2 * j]?.bind hexDigitValue) = some hi → (din[2 * j + 1]?.bind hexDigitValue) = some lo →
        out[j]?.map (·.toNat) = some (hi * 16 + lo)

/-- ENC.HEX on any other string (R165): an odd length first, then the first byte that is no hex digit. A length or an
index above 2^32 - 1 has no stated `r0` (log 9). -/
def Obligations.EncHexErrors : Prop :=
  ∀ (s : State) (din : Bytes), din.length ≤ s.cfg.maxDin → din.length < 2 ^ 32 →
    (din.length % 2 = 1 →
      exec (.encHex din) s = .next (answered s { status := 0x03, r0 := some (BitVec.ofNat 32 din.length) })) ∧
    (din.length % 2 = 0 → ∀ (before after : Bytes) (c : Byte), din = before ++ c :: after →
      (∀ d ∈ before, (hexDigitValue d).isSome) → hexDigitValue c = none →
      exec (.encHex din) s = .next (answered s
        { status := 0x04, r0 := some (BitVec.ofNat 32 before.length), r2 := some (c.setWidth 32) }))

/-- ENC.TEXT (R170): code points up to 0x7F are one byte each under every `TEXT_HIGH`, and up to 0xFF under `LATIN1`. -/
def Obligations.EncTextOneByteEach : Prop :=
  ∀ (s : State) (text : Text), text.length ≤ s.cfg.maxDin →
    (∀ c ∈ text, c.val ≤ 0x7F ∨ (s.cfg.textHigh = .latin1 ∧ c.val ≤ 0xFF)) →
    exec (.encText text) s = .next (answered s
      { status := 0x00, dout := some (text.map fun c => BitVec.ofNat 8 c.val) })

/-- ENC.TEXT under `UTF8` (R170): the bytes are the UTF-8 form that Lean's own encoder of characters gives. -/
def Obligations.EncTextIsUtf8 : Prop :=
  ∀ (s : State) (chars : List Char), s.cfg.textHigh = .utf8 → chars.length ≤ s.cfg.maxDin →
    exec (.encText (chars.map pointOf)) s = .next (answered s
      { status := 0x00, dout := some ((chars.flatMap String.utf8EncodeChar).map (·.toBitVec)) })

/-- ENC.TEXT (R170): the first code point `TEXT_HIGH` cannot encode is reported with its index, and no bytes are
returned. An index above 2^32 - 1 has no stated `r0` (log 9). -/
def Obligations.EncTextReportsFirstUnencodable : Prop :=
  ∀ (s : State) (before after : Text) (c : CodePoint), (before ++ c :: after).length ≤ s.cfg.maxDin →
    before.length < 2 ^ 32 → (∀ d ∈ before, CanEncode s.cfg.textHigh d) → ¬ CanEncode s.cfg.textHigh c →
    exec (.encText (before ++ c :: after)) s = .next (answered s
      { status := 0x05, r0 := some (BitVec.ofNat 32 before.length), r2 := some (BitVec.ofNat 32 c.val) })

/-- DATE.PACK (R171, R172). -/
def Obligations.DatePackResult : Prop :=
  ∀ (s : State) (y m d : Word32),
    encodeWord (.datePack y m d) = 0x00000024 ∧
    (¬ (2000 ≤ y.toNat ∧ y.toNat ≤ 2127) →
      exec (.datePack y m d) s = .next (answered s { status := 0x20, r0 := some 1 })) ∧
    (2000 ≤ y.toNat ∧ y.toNat ≤ 2127 → ¬ (1 ≤ m.toNat ∧ m.toNat ≤ 12) →
      exec (.datePack y m d) s = .next (answered s { status := 0x20, r0 := some 2 })) ∧
    (2000 ≤ y.toNat ∧ y.toNat ≤ 2127 → 1 ≤ m.toNat ∧ m.toNat ≤ 12 → ¬ (1 ≤ d.toNat ∧ d.toNat ≤ 31) →
      exec (.datePack y m d) s = .next (answered s { status := 0x20, r0 := some 3 })) ∧
    (2000 ≤ y.toNat ∧ y.toNat ≤ 2127 → 1 ≤ m.toNat ∧ m.toNat ≤ 12 → 1 ≤ d.toNat ∧ d.toNat ≤ 31 →
      exec (.datePack y m d) s = .next (answered s
        { status := 0x00, r0 := some (BitVec.ofNat 32 ((y.toNat - 2000) * 512 + m.toNat * 32 + d.toNat)) }))

/-- DATE.UNPACK (R173). -/
def Obligations.DateUnpackResult : Prop :=
  ∀ (s : State) (v : Word32),
    encodeWord (.dateUnpack v) = 0x00000025 ∧
    (2 ^ 16 ≤ v.toNat → exec (.dateUnpack v) s = .next (answered s { status := 0x22, r0 := some 1 })) ∧
    (v.toNat < 2 ^ 16 → ¬ (1 ≤ v.toNat / 32 % 16 ∧ v.toNat / 32 % 16 ≤ 12) →
      exec (.dateUnpack v) s = .next (answered s { status := 0x20, r0 := some 2 })) ∧
    (v.toNat < 2 ^ 16 → 1 ≤ v.toNat / 32 % 16 ∧ v.toNat / 32 % 16 ≤ 12 → v.toNat % 32 = 0 →
      exec (.dateUnpack v) s = .next (answered s { status := 0x20, r0 := some 3 })) ∧
    (v.toNat < 2 ^ 16 → 1 ≤ v.toNat / 32 % 16 ∧ v.toNat / 32 % 16 ≤ 12 → v.toNat % 32 ≠ 0 →
      exec (.dateUnpack v) s = .next (answered s
        { status := 0x00
          r0 := some (BitVec.ofNat 32 (2000 + v.toNat / 512))
          r1 := some (BitVec.ofNat 32 (v.toNat / 32 % 16))
          r2 := some (BitVec.ofNat 32 (v.toNat % 32)) }))

/-- TIME.PACK (R174). -/
def Obligations.TimePackResult : Prop :=
  ∀ (s : State) (h m : Word32),
    encodeWord (.timePack h m) = 0x00000026 ∧
    (23 < h.toNat → exec (.timePack h m) s = .next (answered s { status := 0x20, r0 := some 1 })) ∧
    (h.toNat ≤ 23 → 59 < m.toNat →
      exec (.timePack h m) s = .next (answered s { status := 0x20, r0 := some 2 })) ∧
    (h.toNat ≤ 23 → m.toNat ≤ 59 →
      exec (.timePack h m) s = .next (answered s
        { status := 0x00, r0 := some (BitVec.ofNat 32 (h.toNat * 100 + m.toNat)) }))

/-- TIME.UNPACK (R175). -/
def Obligations.TimeUnpackResult : Prop :=
  ∀ (s : State) (v : Word32),
    encodeWord (.timeUnpack v) = 0x00000027 ∧
    (2 ^ 16 ≤ v.toNat → exec (.timeUnpack v) s = .next (answered s { status := 0x22, r0 := some 1 })) ∧
    (v.toNat < 2 ^ 16 → 2400 ≤ v.toNat →
      exec (.timeUnpack v) s = .next (answered s { status := 0x20, r0 := some 1 })) ∧
    (v.toNat < 2400 → 60 ≤ v.toNat % 100 →
      exec (.timeUnpack v) s = .next (answered s { status := 0x20, r0 := some 2 })) ∧
    (∀ h m : Nat, v.toNat = h * 100 + m → h ≤ 23 → m ≤ 59 →
      exec (.timeUnpack v) s = .next (answered s
        { status := 0x00, r0 := some (BitVec.ofNat 32 h), r1 := some (BitVec.ofNat 32 m) }))

/-- R178: packing and unpacking a date, and a time, undo each other, both ways, over the whole domain. -/
def Obligations.PackUnpackRoundTrips : Prop :=
  ∀ s : State,
    (∀ y m d : Word32, 2000 ≤ y.toNat ∧ y.toNat ≤ 2127 → 1 ≤ m.toNat ∧ m.toNat ≤ 12 → 1 ≤ d.toNat ∧ d.toNat ≤ 31 →
      ∃ v, exec (.datePack y m d) s = .next (answered s { status := 0x00, r0 := some v }) ∧
        exec (.dateUnpack v) s = .next (answered s { status := 0x00, r0 := some y, r1 := some m, r2 := some d })) ∧
    (∀ v y m d : Word32,
      exec (.dateUnpack v) s = .next (answered s { status := 0x00, r0 := some y, r1 := some m, r2 := some d }) →
      exec (.datePack y m d) s = .next (answered s { status := 0x00, r0 := some v })) ∧
    (∀ h m : Word32, h.toNat ≤ 23 → m.toNat ≤ 59 →
      ∃ v, exec (.timePack h m) s = .next (answered s { status := 0x00, r0 := some v }) ∧
        exec (.timeUnpack v) s = .next (answered s { status := 0x00, r0 := some h, r1 := some m })) ∧
    (∀ v h m : Word32,
      exec (.timeUnpack v) s = .next (answered s { status := 0x00, r0 := some h, r1 := some m }) →
      exec (.timePack h m) s = .next (answered s { status := 0x00, r0 := some v }))

/-- RSP.MATCH (R176): exact equality of the whole sequence. -/
def Obligations.RspMatchResult : Prop :=
  ∀ (s : State) (id : Byte) (din : Bytes),
    encodeWord (.rspMatch id din) = 0x00000028 ||| (id.setWidth 32 <<< 8) ∧
    (din.length ≤ s.cfg.maxDin →
      (s.cfg.tokenTable.length ≤ id.toNat →
        exec (.rspMatch id din) s = .next (answered s { status := 0x21, r0 := some (id.setWidth 32) })) ∧
      (∀ t, s.cfg.tokenTable[id.toNat]? = some t →
        (din = t.bytes → exec (.rspMatch id din) s = .next (answered s { status := 0x00, r0 := some 1 })) ∧
        (din ≠ t.bytes → exec (.rspMatch id din) s = .next (answered s { status := 0x00, r0 := some 0 }))))

/-- RSP.INFO (R177). A token longer than a 32-bit length has no stated `r1` (log 9). -/
def Obligations.RspInfoResult : Prop :=
  ∀ (s : State) (id : Byte),
    encodeWord (.rspInfo id) = 0x00000029 ||| (id.setWidth 32 <<< 8) ∧
    (s.cfg.tokenTable.length ≤ id.toNat →
      exec (.rspInfo id) s = .next (answered s { status := 0x21, r0 := some (id.setWidth 32) })) ∧
    (∀ t, s.cfg.tokenTable[id.toNat]? = some t → t.bytes.length < 2 ^ 32 →
      exec (.rspInfo id) s = .next (answered s
        { status := 0x00, r1 := some (BitVec.ofNat 32 t.bytes.length), dout := some t.bytes }))

/-- 30_encoding.md R75, `enc.cmdcrc`: the second request appends the checksum to what the first encoded, and there is
none when the first returned an error. -/
def Obligations.CmdCrcSecondRequest : Prop :=
  ∀ (s : State) (id : Byte) (params : Bytes) (r : Response),
    exec (.encCmd id params) s = .next (answered s r) →
    (r.status ≠ 0x00 → cmdCrcSecond r = none) ∧
    (r.status = 0x00 → ∃ d, r.dout = some d ∧ cmdCrcSecond r = some (.crcAppend d))

/-- 30_encoding.md R75: a name of the command table stands for the id of its entry; an unknown name is an assembly
error. -/
def Obligations.AssemblerResolvesCommandNames : Prop :=
  ∀ (cfg : Config) (name : String) (buf : Bytes), CmdTableWF cfg.cmdTable →
    (∀ (id : Byte) (e : CmdEntry), cfg.cmdTable[id.toNat]? = some e → e.name = name →
      asmInstr cfg "enc.cmd" [.name name, .bytes buf] = some (.one (.encCmd id buf)) ∧
      asmInstr cfg "enc.cmd" [.name name] = some (.one (.encCmd id [])) ∧
      asmInstr cfg "cmd.info" [.name name] = some (.one (.cmdInfo id)) ∧
      asmInstr cfg "enc.cmdcrc" [.name name, .bytes buf] = some (.cmdCrc (.encCmd id buf))) ∧
    ((∀ e ∈ cfg.cmdTable, e.name ≠ name) →
      asmInstr cfg "enc.cmd" [.name name, .bytes buf] = none ∧ asmInstr cfg "enc.cmd" [.name name] = none ∧
      asmInstr cfg "cmd.info" [.name name] = none ∧ asmInstr cfg "enc.cmdcrc" [.name name, .bytes buf] = none)
end

