-- ==== Sys2Proof/Laws/State.lean ====
section
/-! SUPPORT. The fields of the state after each update, and of a record after each write of an attribute. -/

namespace Sys2Proof.Laws

open Sys2Proof.Machine Sys2Proof.Safety

@[simp] theorem deliver_cfg (s : State) (r : Response) : (deliver s r).cfg = s.cfg := rfl
@[simp] theorem deliver_inFlight (s : State) (r : Response) : (deliver s r).inFlight = none := rfl
@[simp] theorem deliver_host (s : State) (r : Response) : (deliver s r).host = s.host := rfl
@[simp] theorem deliver_responses (s : State) (r : Response) : (deliver s r).responses = s.responses ++ [r] := rfl

@[simp] theorem answered_cfg (s : State) (r : Response) : (answered s r).cfg = s.cfg := rfl
@[simp] theorem answered_inFlight (s : State) (r : Response) : (answered s r).inFlight = none := rfl
@[simp] theorem answered_host (s : State) (r : Response) : (answered s r).host = s.host := rfl
@[simp] theorem answered_responses (s : State) (r : Response) : (answered s r).responses = s.responses ++ [r] := rfl

@[simp] theorem applyReset_cfg (s : State) : (applyReset s).cfg = s.cfg := rfl
@[simp] theorem applyReset_inFlight (s : State) : (applyReset s).inFlight = none := rfl
@[simp] theorem applyReset_host (s : State) : (applyReset s).host = s.host.tail := rfl
@[simp] theorem applyReset_responses (s : State) : (applyReset s).responses = s.responses := rfl

@[simp] theorem placeRequest_cfg (s : State) (r : Request) : (placeRequest s r).cfg = s.cfg := rfl
@[simp] theorem placeRequest_inFlight (s : State) (r : Request) : (placeRequest s r).inFlight = some r := rfl
@[simp] theorem placeRequest_host (s : State) (r : Request) : (placeRequest s r).host = .wait :: s.host := rfl
@[simp] theorem placeRequest_responses (s : State) (r : Request) : (placeRequest s r).responses = s.responses := rfl

@[simp] theorem hostTurn_cfg (s : State) : (hostTurn s).cfg = s.cfg := by
  unfold hostTurn; split <;> rfl

@[simp] theorem hostTurn_responses (s : State) : (hostTurn s).responses = s.responses := by
  unfold hostTurn; split <;> rfl

/-- Delivering a response gives the state claims call `answered`. -/
theorem deliver_eq_answered (s : State) (r : Response) : deliver s r = answered s r := rfl

/-- The response of an answered state can be read off it. -/
theorem answered_inj {s : State} {p r : Response} (h : answered s p = answered s r) : p = r := by
  have h' := congrArg State.responses h
  simpa using h'

/-! Attributes of a record. -/

@[simp] theorem scaledOf_setScaled (rec : Loop2Record) (x : Option Rat) (a b : ScaledAttr) :
    scaledOf (setScaled rec x a) b = if a = b then x else scaledOf rec b := by
  cases a <;> cases b <;> rfl

@[simp] theorem windOf_setScaled (rec : Loop2Record) (x : Option Rat) (a : ScaledAttr) (b : WindAttr) :
    windOf (setScaled rec x a) b = windOf rec b := by
  cases a <;> cases b <;> rfl

@[simp] theorem rainOf_setScaled (rec : Loop2Record) (x : Option Rat) (a : ScaledAttr) (b : RainAttr) :
    rainOf (setScaled rec x a) b = rainOf rec b := by
  cases a <;> cases b <;> rfl

@[simp] theorem barTrend_setScaled (rec : Loop2Record) (x : Option Rat) (a : ScaledAttr) :
    (setScaled rec x a).barTrend = rec.barTrend := by
  cases a <;> rfl

@[simp] theorem crcOk_setScaled (rec : Loop2Record) (x : Option Rat) (a : ScaledAttr) :
    (setScaled rec x a).crcOk = rec.crcOk := by
  cases a <;> rfl

@[simp] theorem scaledOf_setWind (rec : Loop2Record) (x : Option Word16) (a : WindAttr) (b : ScaledAttr) :
    scaledOf (setWind rec x a) b = scaledOf rec b := by
  cases a <;> cases b <;> rfl

@[simp] theorem windOf_setWind (rec : Loop2Record) (x : Option Word16) (a b : WindAttr) :
    windOf (setWind rec x a) b = if a = b then x else windOf rec b := by
  cases a <;> cases b <;> rfl

@[simp] theorem rainOf_setWind (rec : Loop2Record) (x : Option Word16) (a : WindAttr) (b : RainAttr) :
    rainOf (setWind rec x a) b = rainOf rec b := by
  cases a <;> cases b <;> rfl

@[simp] theorem barTrend_setWind (rec : Loop2Record) (x : Option Word16) (a : WindAttr) :
    (setWind rec x a).barTrend = rec.barTrend := by
  cases a <;> rfl

@[simp] theorem crcOk_setWind (rec : Loop2Record) (x : Option Word16) (a : WindAttr) :
    (setWind rec x a).crcOk = rec.crcOk := by
  cases a <;> rfl

@[simp] theorem scaledOf_setRain (rec : Loop2Record) (x : Option Rat) (a : RainAttr) (b : ScaledAttr) :
    scaledOf (setRain rec x a) b = scaledOf rec b := by
  cases a <;> cases b <;> rfl

@[simp] theorem windOf_setRain (rec : Loop2Record) (x : Option Rat) (a : RainAttr) (b : WindAttr) :
    windOf (setRain rec x a) b = windOf rec b := by
  cases a <;> cases b <;> rfl

@[simp] theorem rainOf_setRain (rec : Loop2Record) (x : Option Rat) (a b : RainAttr) :
    rainOf (setRain rec x a) b = if a = b then x else rainOf rec b := by
  cases a <;> cases b <;> rfl

@[simp] theorem barTrend_setRain (rec : Loop2Record) (x : Option Rat) (a : RainAttr) :
    (setRain rec x a).barTrend = rec.barTrend := by
  cases a <;> rfl

@[simp] theorem crcOk_setRain (rec : Loop2Record) (x : Option Rat) (a : RainAttr) :
    (setRain rec x a).crcOk = rec.crcOk := by
  cases a <;> rfl

end Sys2Proof.Laws
end

