-- ==== Sys2Proof/Laws/Ops.lean ====
section
/-! SUPPORT. What each shared operation does, once: the buffer bound, counts, the host's turn, and the step as a whole. -/

namespace Sys2Proof.Laws

open Sys2Proof.Machine Sys2Proof.Safety

/-- The bound of 20_memory.md R41 is a comparison of lengths. -/
theorem fits_iff {α : Type} (l : List α) (n : Nat) : fits l n = true ↔ l.length ≤ n := by
  induction l generalizing n with
  | nil => simp [fits]
  | cons x rest ih =>
    cases n with
    | zero => simp [fits]
    | succ n => simp [fits, ih]

theorem bounded_of_le {α : Type} {cfg : Config} {buf : List α} (h : buf.length ≤ cfg.maxDin) (body : Response) :
    bounded cfg buf body = body := by
  simp [bounded, (fits_iff buf cfg.maxDin).2 h]

theorem bounded_of_lt {α : Type} {cfg : Config} {buf : List α} (h : cfg.maxDin < buf.length) (body : Response) :
    bounded cfg buf body = raiseOperand 0 := by
  have : ¬ fits buf cfg.maxDin = true := fun hf => absurd ((fits_iff buf cfg.maxDin).1 hf) (by omega)
  simp [bounded, this]

/-- A bounded operation gives its body's response or the refusal of the bound. -/
theorem bounded_cases {α : Type} (cfg : Config) (buf : List α) (body : Response) :
    bounded cfg buf body = body ∨ bounded cfg buf body = raiseOperand 0 := by
  unfold bounded; split <;> simp

theorem scalar_of_lt {n : Nat} (h : n < 2 ^ 32) : scalar n = BitVec.ofNat 32 n := by
  simp only [scalar, if_pos h]

/-- A reset lands now exactly when it is the host's next event. -/
theorem resetNow_iff (s : State) : resetNow s = true ↔ s.host.head? = some .reset := by
  unfold resetNow
  split
  · simp_all
  · rename_i h
    cases hh : s.host with
    | nil => simp
    | cons e rest =>
      cases e with
      | reset => exact absurd hh (h rest)
      | issue r => simp
      | wait => simp

/-- Every instruction ends by delivering one response. -/
theorem exec_delivers (i : Instr) (s : State) : ∃ r, exec i s = .next (answered s r) := by
  cases i <;> exact ⟨_, rfl⟩

/-- Everything a step can do: the host's turn, a reset, the answer to an illegal request, or one instruction. -/
theorem step_cases (s : State) :
    (s.inFlight = none ∧ step s = .next (hostTurn s)) ∨
    (∃ r, s.inFlight = some r ∧ s.host.head? = some .reset ∧ step s = .next (applyReset s)) ∨
    (∃ r c, s.inFlight = some r ∧ s.host.head? ≠ some .reset ∧ decode r = .error c ∧
      step s = .next (answered s (raiseIllegal c))) ∨
    (∃ r i, s.inFlight = some r ∧ s.host.head? ≠ some .reset ∧ decode r = .ok i ∧ step s = exec i s) := by
  unfold step
  cases hf : s.inFlight with
  | none => exact .inl ⟨rfl, rfl⟩
  | some r =>
    by_cases hr : resetNow s = true
    · exact .inr (.inl ⟨r, rfl, (resetNow_iff s).1 hr, by simp [hr]⟩)
    · have hh : s.host.head? ≠ some .reset := fun h => hr ((resetNow_iff s).2 h)
      cases hd : decode r with
      | error c => exact .inr (.inr (.inl ⟨r, c, rfl, hh, hd, by simp [hr, hd]; rfl⟩))
      | ok i => exact .inr (.inr (.inr ⟨r, i, rfl, hh, hd, by simp [hr, hd]⟩))

/-- A step ends in one of three ways: the host's turn, a reset, or one response to the request in flight. -/
theorem step_next (s : State) :
    (s.inFlight = none ∧ step s = .next (hostTurn s)) ∨
    (∃ r, s.inFlight = some r ∧ s.host.head? = some .reset ∧ step s = .next (applyReset s)) ∨
    (∃ r p, s.inFlight = some r ∧ s.host.head? ≠ some .reset ∧ step s = .next (answered s p)) := by
  rcases step_cases s with h | h | ⟨r, c, hf, hh, _, hs⟩ | ⟨r, i, hf, hh, _, hs⟩
  · exact .inl h
  · exact .inr (.inl h)
  · exact .inr (.inr ⟨r, _, hf, hh, hs⟩)
  · obtain ⟨p, hp⟩ := exec_delivers i s
    exact .inr (.inr ⟨r, p, hf, hh, hs.trans hp⟩)

/-- A run takes its first step and goes on from the state that step answers. -/
theorem run_succ_of_next {s t : State} (k : Nat) (h : step s = .next t) :
    Host.Core.run Sys2Proof.core (k + 1) s = Host.Core.run Sys2Proof.core k t := by
  have h' : Sys2Proof.core.step s = .next t := h
  simp only [Host.Core.run, h']

end Sys2Proof.Laws
end

