-- ==== Sys2Proof/Laws/Crc.lean ====
section
/-! SUPPORT. The checksum loop: it equals the checksum on natural numbers, it is linear, it takes no nonzero
accumulator to zero on a zero byte, and a checksum after its buffer leaves zero (spec/41_checksum.md R101 to R107). -/

namespace Sys2Proof.Laws

open Sys2Proof.Machine Sys2Proof.Safety

/-! The loop over the table of any instance. -/

theorem crcCompute_append (cfg : Config) (seed : Word16) (a b : Bytes) :
    crcCompute cfg seed (a ++ b) = crcCompute cfg (crcCompute cfg seed a) b :=
  List.foldl_append

theorem crcCompute_cons (cfg : Config) (seed : Word16) (b : Byte) (rest : Bytes) :
    crcCompute cfg seed (b :: rest) = crcCompute cfg (crcStep cfg seed b) rest := rfl

/-- The index of a step, as a number: masked to 8 bits (R105). -/
theorem crcIndex_toNat (acc : Word16) (b : Byte) :
    ((acc >>> 8).setWidth 8 ^^^ b).toNat = (acc.toNat / 256 ^^^ b.toNat) % 256 := by
  have hb := b.isLt
  rw [BitVec.toNat_xor, BitVec.toNat_setWidth, BitVec.toNat_ushiftRight, Nat.shiftRight_eq_div_pow]
  have h1 : acc.toNat / 2 ^ 8 < 2 ^ 8 := by have := acc.isLt; omega
  rw [Nat.mod_eq_of_lt h1]
  exact (Nat.mod_eq_of_lt (Nat.xor_lt_two_pow h1 hb)).symm

theorem crcStep_toNat (cfg : Config) (acc : Word16) (b : Byte) :
    (crcStep cfg acc b).toNat =
      (cfg.crcTable[(acc.toNat / 256 ^^^ b.toNat) % 256]'(Nat.mod_lt _ (by omega))).toNat ^^^
        (acc.toNat * 256 % 2 ^ 16) := by
  simp only [crcStep, tableAt, crcIndex_toNat]
  rw [BitVec.toNat_xor, BitVec.toNat_shiftLeft, Nat.shiftLeft_eq]

/-- The machine's loop computes the checksum claims use. -/
theorem crcOver_eq (cfg : Config) (acc : Word16) (buf : Bytes) :
    crcOver cfg.crcTable acc.toNat buf = (crcCompute cfg acc buf).toNat := by
  induction buf generalizing acc with
  | nil => rfl
  | cons b rest ih => rw [crcOver, ← crcStep_toNat cfg acc b, ih, crcCompute_cons]

/-! The table of 10_state.md R22. -/

theorem crcGenTurn_xor (c d : Word16) : crcGenTurn (c ^^^ d) = crcGenTurn c ^^^ crcGenTurn d := by
  unfold crcGenTurn
  rw [BitVec.getLsbD_xor, BitVec.shiftLeft_xor_distrib]
  cases c.getLsbD 15 <;> cases d.getLsbD 15
  · rfl
  · simp [BitVec.xor_assoc]
  · simp only [Bool.xor_false, if_true, Bool.false_eq_true, if_false]; ac_rfl
  · simp only [Bool.xor_true, Bool.not_true, Bool.false_eq_true, if_false, if_true]
    have h : ∀ x y p : Word16, x ^^^ y = (x ^^^ p) ^^^ (y ^^^ p) := by
      intro x y p
      rw [show (x ^^^ p) ^^^ (y ^^^ p) = (x ^^^ y) ^^^ (p ^^^ p) by ac_rfl, BitVec.xor_self, BitVec.xor_zero]
    exact h _ _ _

theorem crcGenTurns_xor (n : Nat) (c d : Word16) :
    Nat.repeat crcGenTurn n (c ^^^ d) = Nat.repeat crcGenTurn n c ^^^ Nat.repeat crcGenTurn n d := by
  induction n with
  | zero => rfl
  | succ n ih => simp only [Nat.repeat, ih, crcGenTurn_xor]

/-- The generator is linear (R22). -/
theorem crcGen_xor (i j : Byte) : crcGen (i ^^^ j) = crcGen i ^^^ crcGen j := by
  simp only [crcGen, BitVec.setWidth_xor, BitVec.shiftLeft_xor_distrib, crcGenTurns_xor]

theorem tableAt_eq {cfg : Config} (h : CrcTableWF cfg.crcTable) (i : Byte) : tableAt cfg i = crcGen i :=
  h i.toFin

theorem tableAt_xor {cfg : Config} (h : CrcTableWF cfg.crcTable) (i j : Byte) :
    tableAt cfg (i ^^^ j) = tableAt cfg i ^^^ tableAt cfg j := by
  simp only [tableAt_eq h, crcGen_xor]

theorem tableAt_zero {cfg : Config} (h : CrcTableWF cfg.crcTable) : tableAt cfg 0#8 = 0#16 := by
  rw [tableAt_eq h]; decide

/-- No entry but the first has a low byte of 0. -/
theorem crcGen_low_eq_zero : ∀ i : Fin 256, (crcGen (BitVec.ofFin i)).extractLsb' 0 8 = 0#8 → i = 0 := by
  decide +kernel

/-! The loop over that table. -/

theorem crcStep_xor {cfg : Config} (h : CrcTableWF cfg.crcTable) (a a' : Word16) (b b' : Byte) :
    crcStep cfg (a ^^^ a') (b ^^^ b') = crcStep cfg a b ^^^ crcStep cfg a' b' := by
  simp only [crcStep, BitVec.shiftLeft_xor_distrib, BitVec.ushiftRight_xor_distrib, BitVec.setWidth_xor]
  rw [show ((a >>> 8).setWidth 8 ^^^ (a' >>> 8).setWidth 8) ^^^ (b ^^^ b')
      = ((a >>> 8).setWidth 8 ^^^ b) ^^^ ((a' >>> 8).setWidth 8 ^^^ b') by ac_rfl, tableAt_xor h]
  ac_rfl

/-- The checksum of the exclusive or of two buffers of one length. -/
theorem crcCompute_xor {cfg : Config} (h : CrcTableWF cfg.crcTable) (a a' : Word16) (x y : Bytes)
    (hl : x.length = y.length) :
    crcCompute cfg (a ^^^ a') (List.zipWith (· ^^^ ·) x y) = crcCompute cfg a x ^^^ crcCompute cfg a' y := by
  induction x generalizing a a' y with
  | nil => cases y with
    | nil => rfl
    | cons _ _ => simp at hl
  | cons b rest ih => cases y with
    | nil => simp at hl
    | cons b' rest' =>
      simp only [List.zipWith_cons_cons, crcCompute_cons, crcStep_xor h]
      exact ih _ _ _ (by simpa using hl)

theorem crcStep_zero_zero {cfg : Config} (h : CrcTableWF cfg.crcTable) : crcStep cfg 0 0 = 0 := by
  simp [crcStep, tableAt_zero h]

/-- Leading zero bytes change nothing at accumulator 0 (R107). -/
theorem crcCompute_zeros {cfg : Config} (h : CrcTableWF cfg.crcTable) (n : Nat) :
    crcCompute cfg 0 (List.replicate n 0) = 0 := by
  induction n with
  | zero => rfl
  | succ n ih => rw [List.replicate_succ, crcCompute_cons, crcStep_zero_zero h, ih]

/-- A zero byte takes only the accumulator 0 to 0. -/
theorem eq_zero_of_crcStep_zero {cfg : Config} (h : CrcTableWF cfg.crcTable) {acc : Word16}
    (hz : crcStep cfg acc 0 = 0) : acc = 0 := by
  have hx : crcGen ((acc >>> 8).setWidth 8) = acc <<< 8 := by
    have := hz
    rw [crcStep, show ((acc >>> 8).setWidth 8 ^^^ (0 : Byte)) = (acc >>> 8).setWidth 8 from BitVec.xor_zero,
      tableAt_eq h] at this
    exact BitVec.xor_eq_zero_iff.1 this
  have hlow : (crcGen ((acc >>> 8).setWidth 8)).extractLsb' 0 8 = 0#8 := by
    rw [hx]
    apply BitVec.eq_of_getLsbD_eq
    intro i hi
    simp [hi]
  have hidx : (acc >>> 8).setWidth 8 = (0 : Byte) := by
    have h0 := crcGen_low_eq_zero ((acc >>> 8).setWidth 8 : Byte).toFin hlow
    exact BitVec.eq_of_toFin_eq h0
  rw [hidx] at hx
  have hs : acc <<< 8 = 0 := by rw [← hx]; decide
  apply BitVec.eq_of_getLsbD_eq
  intro i hi
  by_cases h8 : i < 8
  · have := congrArg (fun w => BitVec.getLsbD w (i + 8)) hs
    have h9 : i + 8 < 16 := by omega
    have h10 : acc.getLsbD i = false := by simpa [h9, hi] using this
    exact h10.trans (BitVec.getLsbD_zero).symm
  · have := congrArg (fun w => BitVec.getLsbD w (i - 8)) hidx
    have h9 : i - 8 < 8 := by omega
    have h10 : 8 + (i - 8) = i := by omega
    simpa [h9, h10] using this

theorem eq_zero_of_crcCompute_zeros {cfg : Config} (h : CrcTableWF cfg.crcTable) {acc : Word16} (n : Nat)
    (hz : crcCompute cfg acc (List.replicate n 0) = 0) : acc = 0 := by
  induction n generalizing acc with
  | zero => exact hz
  | succ n ih =>
    rw [List.replicate_succ, crcCompute_cons] at hz
    exact eq_zero_of_crcStep_zero h (ih hz)

/-- The step on the accumulator's own high byte shifts it (R100). -/
theorem crcStep_high {cfg : Config} (h : CrcTableWF cfg.crcTable) (acc : Word16) :
    crcStep cfg acc ((acc >>> 8).setWidth 8) = acc <<< 8 := by
  simp [crcStep, tableAt_zero h]

/-- A checksum after its buffer, big-endian, leaves 0 (R103). -/
theorem crcCompute_append_self {cfg : Config} (h : CrcTableWF cfg.crcTable) (seed : Word16) (buf : Bytes) :
    crcCompute cfg seed (buf ++ be16Bytes (crcCompute cfg seed buf)) = 0 := by
  rw [crcCompute_append]
  generalize crcCompute cfg seed buf = acc
  have e1 : acc.extractLsb' 8 8 = (acc >>> 8).setWidth 8 := by
    apply BitVec.eq_of_getLsbD_eq; intro i hi; simp [hi]
  have e2 : acc.extractLsb' 0 8 = ((acc <<< 8) >>> 8).setWidth 8 := by
    apply BitVec.eq_of_getLsbD_eq
    intro i hi
    have h1 : 8 + i < 16 := by omega
    have h2 : i < 16 := by omega
    simp [hi, h1, BitVec.getLsbD_eq_getElem h2]
  simp only [be16Bytes, crcCompute_cons, e1, crcStep_high h, e2]
  have e3 : acc <<< 8 <<< 8 = 0 := by
    apply BitVec.eq_of_getLsbD_eq
    intro i hi
    simp
  exact e3

end Sys2Proof.Laws
end

