-- ==== Sys2Proof/Laws/Decode.lean ====
section
/-! SUPPORT. The fields of a command word, the rows of the opcode map, and when a request decodes. -/

namespace Sys2Proof.Laws

open Sys2Proof.Machine Sys2Proof.Safety

@[simp] theorem op_commandWord (op sel : Byte) : (commandWord op sel).extractLsb' 0 8 = op := by
  apply BitVec.eq_of_getLsbD_eq
  intro i hi
  have : i < 32 := by omega
  simp [commandWord, hi, this]

@[simp] theorem sel_commandWord (op sel : Byte) : (commandWord op sel).extractLsb' 8 8 = sel := by
  apply BitVec.eq_of_getLsbD_eq
  intro i hi
  have : 8 + i < 32 := by omega
  simp [commandWord, hi, this]

@[simp] theorem rsv_commandWord (op sel : Byte) : (commandWord op sel).extractLsb' 16 16 = 0 := by
  apply BitVec.eq_of_getLsbD_eq
  intro i hi
  have h1 : 8 ≤ 16 + i - 8 := by omega
  have h2 : 8 ≤ 16 + i := by omega
  simp [commandWord, BitVec.getLsbD_of_ge _ _ h1, BitVec.getLsbD_of_ge _ _ h2]

/-- A command word whose reserved bits are 0 is put together from its two fields. -/
theorem eq_commandWord {cmd : Word32} (h : cmd.extractLsb' 16 16 = (0 : Word16)) :
    cmd = commandWord (cmd.extractLsb' 0 8) (cmd.extractLsb' 8 8) := by
  apply BitVec.eq_of_getLsbD_eq
  intro i hi
  have hz : ∀ j, j < 16 → cmd.getLsbD (16 + j) = false := by
    intro j hj
    have := congrArg (fun w => BitVec.getLsbD w j) h
    simpa [hj] using this
  by_cases h8 : i < 8
  · simp [commandWord, hi, h8]
  · by_cases h16 : i < 16
    · have h1 : i - 8 < 8 := by omega
      have h2 : 8 + (i - 8) = i := by omega
      simp [commandWord, hi, h8, h1, h2]
    · have h3 : ¬ i - 8 < 8 := by omega
      have h4 := hz (i - 16) (by omega)
      rw [show 16 + (i - 16) = i by omega] at h4
      rw [h4]
      simp [commandWord, hi, h8, h3]

/-- The row found for an `OP` value is a row of the map with that value. -/
theorem opRow_mem {op : Byte} {row : OpRow} (h : opRow? op = some row) : row ∈ opcodeMap ∧ row.op = op :=
  ⟨List.mem_of_find?_eq_some h, by simpa using List.find?_some h⟩

/-- When a request decodes, and to what. -/
theorem decode_ok_iff (r : Request) (i : Instr) :
    decode r = .ok i ↔
      ∃ row, opRow? r.op = some row ∧ r.rsv = 0 ∧ row.sel.legal r.sel = true ∧ row.restNeutral r = true ∧
        row.build r = i := by
  unfold decode
  cases opRow? r.op with
  | none => simp
  | some row =>
    by_cases h1 : r.rsv = 0
    · cases h2 : row.sel.legal r.sel <;> cases h3 : row.restNeutral r <;> simp [h1, h2, h3]
    · simp only [if_pos (show r.rsv ≠ 0 from h1)]
      exact ⟨fun h => absurd h (by simp), fun ⟨_, _, h, _⟩ => absurd h h1⟩

@[simp] theorem ofSel_toSel_format (f : FieldFormat) : FieldFormat.ofSel f.toSel = f := by
  obtain ⟨w, s, b⟩ := f
  cases w <;> cases s <;> cases b <;> rfl

@[simp] theorem ofSel_toSel_scale (k : ScaleKind) : ScaleKind.ofSel k.toSel = k := by
  cases k <;> rfl

/-- The `SEL` of a well-formed format is one of the six legal ones (30_encoding.md R66). -/
theorem legal_toSel_format {f : FieldFormat} (h : f.WF) : SelUse.legal .format f.toSel = true := by
  obtain ⟨w, s, b⟩ := f
  revert h
  cases w <;> cases s <;> cases b <;> decide

/-- A legal `SEL` of FLD.EXTRACT is that of a well-formed format. -/
theorem format_of_legal {sel : Byte} (h : SelUse.legal .format sel = true) :
    (FieldFormat.ofSel sel).WF ∧ (FieldFormat.ofSel sel).toSel = sel := by
  have h' : sel ∈ [0x00#8, 0x02, 0x01, 0x03, 0x05, 0x07] := by simpa [SelUse.legal] using h
  simp only [List.mem_cons, List.not_mem_nil, or_false] at h'
  rcases h' with rfl | rfl | rfl | rfl | rfl | rfl <;> decide

/-- A legal `SEL` of FLD.SCALE is that of its kind. -/
theorem scale_of_legal {sel : Byte} (h : SelUse.legal .scale sel = true) : (ScaleKind.ofSel sel).toSel = sel := by
  have h' : sel.toNat < 4 := by simpa [SelUse.legal] using h
  have : sel = 0 ∨ sel = 1 ∨ sel = 2 ∨ sel = 3 := by
    rcases (by omega : sel.toNat = 0 ∨ sel.toNat = 1 ∨ sel.toNat = 2 ∨ sel.toNat = 3) with e | e | e | e
    · exact .inl (BitVec.eq_of_toNat_eq e)
    · exact .inr (.inl (BitVec.eq_of_toNat_eq e))
    · exact .inr (.inr (.inl (BitVec.eq_of_toNat_eq e)))
    · exact .inr (.inr (.inr (BitVec.eq_of_toNat_eq e)))
  rcases this with rfl | rfl | rfl | rfl <;> rfl

end Sys2Proof.Laws
end

