-- ==== Sys2Proof/Laws/Encoder.lean ====
section
/-! SUPPORT. Hex digits and pairs, the encoding of a text, and the packed date as numbers
(spec/43_command_encoder.md R165, R170, R171). -/

namespace Sys2Proof.Laws

open Sys2Proof.Machine Sys2Proof.Safety

/-! Hex. -/

theorem hexVal_toNat_fin : ∀ i : Fin 256,
    (hexVal (BitVec.ofFin i)).map BitVec.toNat = hexDigitValue (BitVec.ofFin i) := by
  decide +kernel

/-- The digit of a byte is its place in one of the two digit strings (R165). -/
theorem hexVal_toNat (c : Byte) : (hexVal c).map BitVec.toNat = hexDigitValue c := hexVal_toNat_fin c.toFin

theorem hexVal_isSome (c : Byte) : (hexVal c).isSome = (hexDigitValue c).isSome := by
  rw [← hexVal_toNat]; cases hexVal c <;> rfl

theorem hexVal_eq_none (c : Byte) : hexVal c = none ↔ hexDigitValue c = none := by
  rw [← hexVal_toNat]; cases hexVal c <;> simp

theorem hexVal_lt_fin : ∀ i : Fin 256, ∀ v ∈ hexVal (BitVec.ofFin i), v.toNat < 16 := by
  decide +kernel

theorem hexVal_lt {c v : Byte} (h : hexVal c = some v) : v.toNat < 16 := hexVal_lt_fin c.toFin v h

theorem firstNonHex_eq_none (b : Bytes) : firstNonHex b = none ↔ ∀ c ∈ b, (hexDigitValue c).isSome := by
  unfold firstNonHex
  rw [List.findIdx?_eq_none_iff]
  refine forall₂_congr fun c _ => ?_
  rw [← hexVal_isSome]
  cases hexVal c <;> simp

/-- The first byte that is no hex digit stands after hex digits only (R165). -/
theorem firstNonHex_of_first (before after : Bytes) (c : Byte) (hb : ∀ d ∈ before, (hexDigitValue d).isSome)
    (hc : hexDigitValue c = none) : firstNonHex (before ++ c :: after) = some before.length := by
  induction before with
  | nil => simp [firstNonHex, List.findIdx?_cons, (hexVal_eq_none c).2 hc]
  | cons d rest ih =>
    have hd : (hexVal d).isNone = false := by
      have := hb d (by simp)
      rw [← hexVal_isSome] at this
      cases h : hexVal d <;> simp_all
    have hr := ih fun e he => hb e (by simp [he])
    unfold firstNonHex at hr ⊢
    rw [List.cons_append, List.findIdx?_cons, hd, hr]
    simp

theorem length_hexPairs : ∀ b : Bytes, (hexPairs b).length = b.length / 2
  | [] => rfl
  | [_] => by simp [hexPairs]
  | _ :: _ :: rest => by simp only [hexPairs, List.length_cons, length_hexPairs rest]; omega

/-- Each pair of digits is one byte, the first digit the high one (R165). -/
theorem getElem?_hexPairs : ∀ (b : Bytes) (j hi lo : Nat), (b[2 * j]?.bind hexDigitValue) = some hi →
    (b[2 * j + 1]?.bind hexDigitValue) = some lo → (hexPairs b)[j]?.map (·.toNat) = some (hi * 16 + lo)
  | [], _, _, _, h, _ => by simp at h
  | [_], j, _, _, _, h => by cases j <;> simp at h
  | x :: y :: rest, 0, hi, lo, h, h' => by
    simp only [Nat.mul_zero, List.getElem?_cons_zero, Option.bind_some, Nat.zero_add, List.getElem?_cons_succ] at h h'
    obtain ⟨u, hu, rfl⟩ := Option.map_eq_some_iff.1 ((hexVal_toNat x).trans h)
    obtain ⟨v, hv, rfl⟩ := Option.map_eq_some_iff.1 ((hexVal_toNat y).trans h')
    have h1 := hexVal_lt hu
    have h2 := hexVal_lt hv
    simp only [hexPairs, hu, hv, Option.getD_some, List.getElem?_cons_zero, Option.map_some, BitVec.toNat_add,
      BitVec.toNat_mul]
    congr 1
    have : (16 : Byte).toNat = 16 := rfl
    rw [this]
    omega
  | x :: y :: rest, j + 1, hi, lo, h, h' => by
    rw [show 2 * (j + 1) = 2 * j + 2 by omega] at h h'
    simp only [List.getElem?_cons_succ] at h h'
    simp only [hexPairs, List.getElem?_cons_succ]
    exact getElem?_hexPairs rest j hi lo h h'

/-! Text. -/

/-- The setting can encode the code point exactly when it gives it bytes (R170). -/
theorem encodePoint_isSome (high : TextHigh) (c : CodePoint) : (encodePoint high c.val).isSome ↔ CanEncode high c := by
  unfold encodePoint CanEncode
  by_cases h : c.val ≤ 0x7F
  · simp [h]
  · rw [if_neg h]
    cases high
    · by_cases h' : 0xD800 ≤ c.val ∧ c.val ≤ 0xDFFF <;> simp [h, h']
    · by_cases h' : c.val ≤ 0xFF <;> simp [h, h']
    · simp [h]

/-- A text that can be encoded gives the bytes of its code points, in order (R170). -/
theorem encodeText_ok (high : TextHigh) (f : CodePoint → Bytes) (text : Text) (i : Nat)
    (h : ∀ c ∈ text, encodePoint high c.val = some (f c)) : encodeText high i text = .ok (text.flatMap f) := by
  induction text generalizing i with
  | nil => rfl
  | cons c rest ih =>
    simp only [encodeText, h c (by simp), ih (i + 1) fun d hd => h d (by simp [hd])]
    rfl

/-- A text is refused at its first code point that cannot be encoded (R170). -/
theorem encodeText_error (high : TextHigh) (before after : Text) (c : CodePoint) (i : Nat)
    (hb : ∀ d ∈ before, CanEncode high d) (hc : ¬ CanEncode high c) :
    encodeText high i (before ++ c :: after) = .error (i + before.length, c) := by
  induction before generalizing i with
  | nil =>
    have : encodePoint high c.val = none := by
      rw [← encodePoint_isSome] at hc
      simpa using hc
    simp [encodeText, this]
  | cons d rest ih =>
    have hd := (encodePoint_isSome high d).2 (hb d (by simp))
    obtain ⟨bytes, hbytes⟩ := Option.isSome_iff_exists.1 hd
    simp only [List.cons_append, encodeText, hbytes, ih (i + 1) fun e he => hb e (by simp [he]), List.length_cons]
    rw [Nat.add_right_comm, Nat.add_assoc]

/-! The packed date. -/

/-- The packed date as a number (R171): the three fields do not overlap. -/
theorem datePack_toNat {y m d : Word32} (hy : 2000 ≤ y.toNat ∧ y.toNat ≤ 2127) (hm : m.toNat ≤ 12) (hd : d.toNat ≤ 31) :
    ((((y - 2000) <<< 9) ||| (m <<< 5) ||| d : Word32)).toNat = (y.toNat - 2000) * 512 + m.toNat * 32 + d.toNat := by
  have e : (y - 2000).toNat = y.toNat - 2000 := by
    rw [BitVec.toNat_sub_of_le (by rw [BitVec.le_def]; exact hy.1)]; rfl
  have h1 : ((y - 2000) <<< 9).toNat = (y.toNat - 2000) <<< 9 := by
    rw [BitVec.toNat_shiftLeft, e, Nat.shiftLeft_eq, Nat.mod_eq_of_lt]; omega
  have h2 : (m <<< 5).toNat = m.toNat <<< 5 := by
    rw [BitVec.toNat_shiftLeft, Nat.shiftLeft_eq, Nat.mod_eq_of_lt]; omega
  rw [BitVec.toNat_or, BitVec.toNat_or, h1, h2]
  have h3 : m.toNat <<< 5 < 2 ^ 9 := by rw [Nat.shiftLeft_eq]; omega
  have h4 : (y.toNat - 2000) <<< 9 ||| m.toNat <<< 5 = ((y.toNat - 2000) * 16 + m.toNat) <<< 5 := by
    rw [← Nat.shiftLeft_add_eq_or_of_lt h3]
    simp only [Nat.shiftLeft_eq]
    omega
  rw [h4, ← Nat.shiftLeft_add_eq_or_of_lt (by omega : d.toNat < 2 ^ 5), Nat.shiftLeft_eq]
  omega

/-- A field of a packed date, as a number (R171). -/
theorem extract_toNat (v : Word32) (start len : Nat) (h : len < 32) :
    ((v.extractLsb' start len).setWidth 32 : Word32).toNat = v.toNat / 2 ^ start % 2 ^ len := by
  rw [BitVec.toNat_setWidth, BitVec.extractLsb'_toNat, Nat.shiftRight_eq_div_pow]
  apply Nat.mod_eq_of_lt
  exact Nat.lt_of_lt_of_le (Nat.mod_lt _ (by positivity)) (Nat.pow_le_pow_right (by omega) (by omega))

/-! UTF-8. -/

theorem or_eq_add (i a b : Nat) (h : b < 2 ^ i) : a * 2 ^ i ||| b = a * 2 ^ i + b := by
  rw [← Nat.shiftLeft_eq, Nat.shiftLeft_add_eq_or_of_lt h]

/-- A continuation byte: its low six bits over 0x80. -/
theorem continuation (x : Nat) : 0x80 ||| (x &&& 0x3F) = x % 64 + 128 := by
  rw [show (0x3F : Nat) = 2 ^ 6 - 1 from rfl, Nat.and_two_pow_sub_one_eq_mod, show (0x80 : Nat) = 2 * 2 ^ 6 from rfl,
    or_eq_add _ _ _ (Nat.mod_lt _ (by decide))]
  omega

/-- The bytes of a character under `UTF8` are those of Lean's own encoder (R170). -/
theorem encodePoint_pointOf (c : Char) :
    encodePoint .utf8 (pointOf c).val = some ((String.utf8EncodeChar c).map (·.toBitVec)) := by
  have hv := c.valid
  have hlt : c.val.toNat < 0x110000 := by
    rcases hv with h | ⟨_, h⟩ <;> simp at h ⊢ <;> omega
  have hs : ¬ (0xD800 ≤ c.val.toNat ∧ c.val.toNat ≤ 0xDFFF) := by
    rcases hv with h | ⟨h, _⟩ <;> simp at h ⊢ <;> omega
  rw [show (pointOf c).val = c.val.toNat from Nat.mod_eq_of_lt hlt]
  unfold encodePoint String.utf8EncodeChar
  generalize c.val.toNat = n at *
  dsimp only
  by_cases h1 : n ≤ 127
  · rw [if_pos h1, if_pos h1]; rfl
  rw [if_neg h1, if_neg h1, if_neg hs]
  unfold utf8
  simp only [continuation, Nat.shiftRight_eq_div_pow]
  by_cases h2 : n < 0x800
  · rw [if_pos h2, if_pos (show n ≤ 2047 by omega), show (0xC0 : Nat) = 3 * 2 ^ 6 from rfl, or_eq_add _ _ _ (by omega),
      show 3 * 2 ^ 6 + n / 2 ^ 6 = n / 64 % 32 + 192 by omega]
    rfl
  rw [if_neg h2, if_neg (show ¬ n ≤ 2047 by omega)]
  by_cases h3 : n < 0x10000
  · rw [if_pos h3, if_pos (show n ≤ 65535 by omega), show (0xE0 : Nat) = 7 * 2 ^ 5 from rfl,
      or_eq_add _ _ _ (by omega), show 7 * 2 ^ 5 + n / 2 ^ 12 = n / 4096 % 16 + 224 by omega]
    rfl
  rw [if_neg h3, if_neg (show ¬ n ≤ 65535 by omega), show (0xF0 : Nat) = 15 * 2 ^ 4 from rfl,
    or_eq_add _ _ _ (by omega), show 15 * 2 ^ 4 + n / 2 ^ 18 = n / 262144 % 8 + 240 by omega]
  rfl

end Sys2Proof.Laws
end

