-- ==== Sys2Proof/Laws/Fields.lean ====
section
/-! SUPPORT. Field reads as numbers, exact rationals, the fixed-field check and the record of a frame
(spec/42_frame_parser.md R130, R133, R138 to R142). -/

namespace Sys2Proof.Laws

open Sys2Proof.Machine Sys2Proof.Safety

/-! Reads. -/

theorem byteAt_of_lt {b : Bytes} {o : Nat} (h : o < b.length) : byteAt b o = b[o] := by
  simp [byteAt, h]

theorem le16_toNat (b : Bytes) (o : Nat) : (le16 b o).toNat = (byteAt b (o + 1)).toNat * 256 + (byteAt b o).toNat := by
  have h := (byteAt b o).isLt
  rw [le16, BitVec.toNat_append, ← Nat.shiftLeft_add_eq_or_of_lt h, Nat.shiftLeft_eq]

theorem be16_toNat (b : Bytes) (o : Nat) : (be16 b o).toNat = (byteAt b o).toNat * 256 + (byteAt b (o + 1)).toNat := by
  have h := (byteAt b (o + 1)).isLt
  rw [be16, BitVec.toNat_append, ← Nat.shiftLeft_add_eq_or_of_lt h, Nat.shiftLeft_eq]

/-- A raw field is the number claims read (20_memory.md R42). -/
theorem readField_toNat (b : Bytes) (o : Nat) (w : Width) (h : o + w.bytes ≤ b.length) :
    (readField b o w).toNat = fieldNat b o w false h := by
  cases w with
  | one =>
    have h0 : o < b.length := by simp only [Width.bytes] at h; omega
    have hb := (b[o]).isLt
    simp only [readField, byteAt_of_lt h0, BitVec.toNat_setWidth, fieldNat]
    omega
  | two =>
    have h0 : o < b.length := by simp only [Width.bytes] at h; omega
    have h1 : o + 1 < b.length := by simp only [Width.bytes] at h; omega
    simp [readField, le16_toNat, byteAt_of_lt h0, byteAt_of_lt h1, fieldNat]

/-- The same for a format of FLD.EXTRACT (R133). -/
theorem readFormat_toNat (f : FieldFormat) (b : Bytes) (o : Nat) (h : o + (formatWidth f).bytes ≤ b.length) :
    (readFormat f b o).toNat = fieldNat b o (formatWidth f) f.bigEndian h := by
  obtain ⟨wide, signed, big⟩ := f
  cases wide <;> cases big
  · exact readField_toNat b o .one h
  · exact readField_toNat b o .one h
  · exact readField_toNat b o .two h
  · have h0 : o < b.length := by simp only [formatWidth, Width.bytes, if_true] at h; omega
    have h1 : o + 1 < b.length := by simp only [formatWidth, Width.bytes, if_true] at h; omega
    simp [readFormat, formatWidth, be16_toNat, byteAt_of_lt h0, byteAt_of_lt h1, fieldNat]

theorem readField_lt (b : Bytes) (o : Nat) (w : Width) : (readField b o w).toNat < 2 ^ (8 * w.bytes) := by
  cases w with
  | one =>
    have h := (byteAt b o).isLt
    simp only [readField, BitVec.toNat_setWidth, Width.bytes]
    omega
  | two => exact (readField b o .two).isLt

theorem readFormat_lt (f : FieldFormat) (b : Bytes) (o : Nat) :
    (readFormat f b o).toNat < 2 ^ (8 * (formatWidth f).bytes) := by
  unfold readFormat
  split
  · rename_i h
    have hw : f.wide = true := by simp_all
    simp only [formatWidth, hw, if_true, Width.bytes]
    exact (be16 b o).isLt
  · exact readField_lt b o _

/-- The value of a raw field, signed or not, is the number claims give it (00_scope.md R9). -/
theorem fieldValue_eq (w : Width) (signed : Bool) (raw : Word16) (h : raw.toNat < 2 ^ (8 * w.bytes)) :
    fieldValue w signed raw = signedInt w signed raw.toNat := by
  cases signed with
  | false => cases w <;> simp [fieldValue, signedInt]
  | true =>
    cases w with
    | one =>
      simp only [Width.bytes] at h
      have h8 : raw.toNat < 256 := h
      simp only [fieldValue, signedInt, BitVec.toInt_eq_toNat_cond, BitVec.toNat_setWidth, Width.bytes,
        Nat.mod_eq_of_lt h]
      split <;> split <;> simp_all <;> omega
    | two =>
      simp only [fieldValue, signedInt, BitVec.toInt_eq_toNat_cond, Width.bytes]
      split <;> split <;> simp_all <;> omega

/-! Exact rationals. -/

theorem scaleExponent_eq (k : ScaleKind) : scaleExponent k = decimals k := by cases k <;> rfl

/-- A scaled value is the quotient by a power of ten (R139). -/
theorem scaleValue_eq (k : ScaleKind) (x : Int) : scaleValue k x = (x : Rat) / 10 ^ decimals k := by
  rw [scaleValue, Rat.mkRat_eq_div, scaleExponent_eq]
  push_cast
  rfl

/-- A rain amount is the product with the ratio (R141). -/
theorem rainAmount_eq (num den : Word32) (x : Int) :
    rainAmount num den x = (x : Rat) * num.toNat / den.toNat := by
  rw [rainAmount, Rat.mkRat_eq_div]
  push_cast
  rfl

/-! The trend table. -/

/-- The index of a code, in a table that has each code at most once (R142). -/
theorem trendOf_eq_some {t : List TrendEntry} (hn : (t.map (·.code)).Nodup) (x : Int) (i : Nat) :
    trendOf t x = some i ↔ (t[i]?.map (·.code)) = some x := by
  unfold trendOf
  induction t generalizing i with
  | nil => simp
  | cons e rest ih =>
    simp only [List.map_cons, List.nodup_cons] at hn
    rw [List.findIdx?_cons]
    by_cases he : e.code = x
    · subst he
      simp only [beq_self_eq_true, if_true]
      constructor
      · rintro h; cases h; simp
      · intro h
        cases i with
        | zero => rfl
        | succ i =>
          exfalso
          simp only [List.getElem?_cons_succ] at h
          obtain ⟨e', he', hc⟩ := Option.map_eq_some_iff.1 h
          exact hn.1 (List.mem_map.2 ⟨e', List.mem_of_getElem? he', hc⟩)
    · have hb : (e.code == x) = false := by simpa using he
      rw [if_neg (by simp [hb])]
      cases i with
      | zero => simp [he]
      | succ i => simp [ih hn.2 i]

theorem trendOf_eq_none (t : List TrendEntry) (x : Int) : trendOf t x = none ↔ ∀ e ∈ t, e.code ≠ x := by
  simp [trendOf, List.findIdx?_eq_none_iff]

theorem trendOf_lt {t : List TrendEntry} {x : Int} {i : Nat} (h : trendOf t x = some i) : i < t.length := by
  obtain ⟨h', _⟩ := List.findIdx?_eq_some_iff_getElem.1 h
  exact h'

/-! The fixed fields. -/

theorem mem_insertFixed (f g : FixedField) (l : List FixedField) : g ∈ insertFixed f l ↔ g = f ∨ g ∈ l := by
  induction l with
  | nil => simp [insertFixed]
  | cons x rest ih =>
    unfold insertFixed
    split
    · simp
    · simp only [List.mem_cons, ih]
      exact or_left_comm

theorem mem_foldl_insertFixed (g : FixedField) (fs acc : List FixedField) :
    g ∈ fs.foldl (fun sorted f => insertFixed f sorted) acc ↔ g ∈ fs ∨ g ∈ acc := by
  induction fs generalizing acc with
  | nil => simp
  | cons f rest ih =>
    rw [List.foldl_cons, ih, mem_insertFixed]
    simp only [List.mem_cons]
    exact or_left_comm.trans or_assoc.symm

theorem mem_sortFixed (g : FixedField) (fs : List FixedField) : g ∈ sortFixed fs ↔ g ∈ fs := by
  simp [sortFixed, mem_foldl_insertFixed]

theorem pairwise_insertFixed (f : FixedField) (l : List FixedField) (h : l.Pairwise (fun a b => a.off ≤ b.off)) :
    (insertFixed f l).Pairwise (fun a b => a.off ≤ b.off) := by
  induction l with
  | nil => simp [insertFixed]
  | cons x rest ih =>
    obtain ⟨hx, hrest⟩ := List.pairwise_cons.1 h
    unfold insertFixed
    split
    · rename_i hlt
      refine List.pairwise_cons.2 ⟨?_, h⟩
      intro a ha
      rcases List.mem_cons.1 ha with rfl | ha
      · omega
      · have := hx a ha; omega
    · rename_i hge
      refine List.pairwise_cons.2 ⟨?_, ih hrest⟩
      intro a ha
      rcases (mem_insertFixed f a rest).1 ha with rfl | ha
      · omega
      · exact hx a ha

theorem pairwise_foldl_insertFixed (fs acc : List FixedField) (h : acc.Pairwise (fun a b => a.off ≤ b.off)) :
    (fs.foldl (fun sorted f => insertFixed f sorted) acc).Pairwise (fun a b => a.off ≤ b.off) := by
  induction fs generalizing acc with
  | nil => exact h
  | cons f rest ih => exact ih _ (pairwise_insertFixed f acc h)

/-- The fixed fields are checked in ascending offset order (R130 step 2). -/
theorem pairwise_sortFixed (fs : List FixedField) : (sortFixed fs).Pairwise (fun a b => a.off ≤ b.off) :=
  pairwise_foldl_insertFixed fs [] List.Pairwise.nil

theorem firstFixedMismatch_eq_none (fs : List FixedField) (din : Bytes) :
    firstFixedMismatch fs din = none ↔ ∀ f ∈ fs, fixedDiffers din f = false := by
  simp [firstFixedMismatch, mem_sortFixed]

/-- The field reported is one that differs, and every field at a smaller offset matches. -/
theorem firstFixedMismatch_spec {fs : List FixedField} {din : Bytes} {f : FixedField}
    (h : firstFixedMismatch fs din = some f) :
    f ∈ fs ∧ fixedDiffers din f = true ∧ ∀ g ∈ fs, g.off < f.off → fixedDiffers din g = false := by
  obtain ⟨hd, before, after, hl, hbefore⟩ := List.find?_eq_some_iff_append.1 h
  have hp := pairwise_sortFixed fs
  rw [hl] at hp
  refine ⟨(mem_sortFixed f fs).1 (hl ▸ by simp), hd, fun g hg hlt => ?_⟩
  have hg' : g ∈ before ++ f :: after := hl ▸ (mem_sortFixed g fs).2 hg
  rcases List.mem_append.1 hg' with hb | ha
  · simpa using hbefore g hb
  · rcases List.mem_cons.1 ha with rfl | ha
    · omega
    · have := (List.pairwise_cons.1 (List.pairwise_append.1 hp).2.1).1 g ha
      omega

/-- In a well-formed layout two fixed fields at one offset are one field. -/
theorem fixed_eq_of_off {l : Layout} (h : l.WF) {f g : FixedField} (hf : f ∈ l.fixed) (hg : g ∈ l.fixed)
    (ho : f.off = g.off) : f = g := by
  have hp : (l.fixed.map (fun f => (f.off, f.width.bytes))).Pairwise Disjoint2 :=
    (List.pairwise_append.1 h.apart).1
  by_contra hne
  have hp' := List.pairwise_iff_getElem.1 (List.pairwise_map.1 hp)
  obtain ⟨i, hi, rfl⟩ := List.getElem_of_mem hf
  obtain ⟨j, hj, rfl⟩ := List.getElem_of_mem hg
  have hd : Disjoint2 (l.fixed[i].off, l.fixed[i].width.bytes) (l.fixed[j].off, l.fixed[j].width.bytes) ∨
      Disjoint2 (l.fixed[j].off, l.fixed[j].width.bytes) (l.fixed[i].off, l.fixed[i].width.bytes) := by
    rcases Nat.lt_trichotomy i j with hij | rfl | hij
    · exact .inl (hp' i j hi hj hij)
    · exact absurd rfl hne
    · exact .inr (hp' j i hj hi hij)
  have hpos : ∀ w : Width, 0 < w.bytes := fun w => by cases w <;> decide
  have b1 := hpos l.fixed[i].width
  have b2 := hpos l.fixed[j].width
  unfold Disjoint2 at hd
  simp only at hd
  omega

/-! The record. -/

/-- A value field's attribute holds what the field decodes to (R130 steps 4 and 5). -/
def Stored (cfg : Config) (num den : Word32) (din : Bytes) (rec : Loop2Record) (v : ValueField) : Prop :=
  match v.target with
  | .scaled a k => scaledOf rec a = (presentValue v din).map (scaleValue k)
  | .winddir a => windOf rec a = (presentValue v din).bind windDirection
  | .rain a => rainOf rec a = (presentValue v din).map (rainAmount num den)
  | .trend => rec.barTrend = (presentValue v din).bind (trendOf cfg.trendTable)

theorem stored_storeValue (cfg : Config) (num den : Word32) (din : Bytes) (rec : Loop2Record) (v : ValueField) :
    Stored cfg num den din (storeValue cfg num den din rec v) v := by
  unfold Stored storeValue
  cases v.target <;> simp

/-- Storing one field leaves the attribute of another as it was. -/
theorem stored_storeValue_of_ne (cfg : Config) (num den : Word32) (din : Bytes) (rec : Loop2Record) (u v : ValueField)
    (hne : u.target.attr ≠ v.target.attr) (h : Stored cfg num den din rec v) :
    Stored cfg num den din (storeValue cfg num den din rec u) v := by
  unfold Stored at h ⊢
  unfold storeValue
  cases hu : u.target <;> cases hv : v.target <;>
    simp_all [Target.attr] <;> exact h

theorem stored_foldl (cfg : Config) (num den : Word32) (din : Bytes) (values : List ValueField) (rec : Loop2Record)
    (v : ValueField) (hn : (values.map (·.target.attr)).Nodup)
    (h : v ∈ values ∨ (v.target.attr ∉ values.map (·.target.attr) ∧ Stored cfg num den din rec v)) :
    Stored cfg num den din (values.foldl (storeValue cfg num den din) rec) v := by
  induction values generalizing rec with
  | nil =>
    rcases h with h | h
    · simp at h
    · exact h.2
  | cons u rest ih =>
    simp only [List.map_cons, List.nodup_cons] at hn
    rw [List.foldl_cons]
    refine ih _ hn.2 ?_
    rcases h with h | ⟨hmem, hst⟩
    · rcases List.mem_cons.1 h with rfl | h
      · exact .inr ⟨hn.1, stored_storeValue cfg num den din rec v⟩
      · exact .inl h
    · simp only [List.map_cons, List.mem_cons, not_or] at hmem
      exact .inr ⟨hmem.2, stored_storeValue_of_ne cfg num den din rec u v (Ne.symm hmem.1) hst⟩

/-- Every value field of a well-formed layout is in the record (R130, R144). -/
theorem stored_decodeRecord {cfg : Config} (h : cfg.layout.WF) (num den : Word32) (din : Bytes) {v : ValueField}
    (hv : v ∈ cfg.layout.values) : Stored cfg num den din (decodeRecord cfg num den din) v :=
  stored_foldl cfg num den din _ _ v h.unique (.inl hv)

theorem crcOk_storeValue (cfg : Config) (num den : Word32) (din : Bytes) (rec : Loop2Record) (v : ValueField) :
    (storeValue cfg num den din rec v).crcOk = rec.crcOk := by
  unfold storeValue
  cases v.target <;> simp

/-- The value fields leave the flag as step 3 computed it (R130). -/
theorem crcOk_decodeRecord (cfg : Config) (num den : Word32) (din : Bytes) :
    (decodeRecord cfg num den din).crcOk = checksumValid cfg din := by
  unfold decodeRecord
  suffices h : ∀ (values : List ValueField) (rec : Loop2Record),
      (values.foldl (storeValue cfg num den din) rec).crcOk = rec.crcOk from h _ _
  intro values
  induction values with
  | nil => intro rec; rfl
  | cons v rest ih => intro rec; rw [List.foldl_cons, ih, crcOk_storeValue]

theorem legalDirection_windDirection (x : Option Int) : LegalDirection (x.bind windDirection) := by
  intro w hw
  obtain ⟨y, rfl, hy⟩ := Option.bind_eq_some_iff.1 hw
  unfold windDirection at hy
  split at hy
  · rename_i hr
    cases hy
    have h1 : y.toNat < 2 ^ 16 := by omega
    have h2 : (y.toNat : Int) = y := Int.toNat_of_nonneg (by omega)
    rw [← h2, BitVec.ofInt_natCast, BitVec.toNat_ofNat, Nat.mod_eq_of_lt h1]
    omega
  · cases hy

theorem legalRecord_storeValue (cfg : Config) (num den : Word32) (din : Bytes) (rec : Loop2Record) (v : ValueField)
    (h : LegalRecord cfg rec) : LegalRecord cfg (storeValue cfg num den din rec v) := by
  obtain ⟨h1, h2, h3⟩ := h
  unfold storeValue
  cases v.target with
  | scaled a k => cases a <;> exact ⟨h1, h2, h3⟩
  | rain a => cases a <;> exact ⟨h1, h2, h3⟩
  | winddir a =>
    cases a
    · exact ⟨legalDirection_windDirection _, h2, h3⟩
    · exact ⟨h1, legalDirection_windDirection _, h3⟩
  | trend =>
    refine ⟨h1, h2, fun i hi => ?_⟩
    obtain ⟨_, _, ht⟩ := Option.bind_eq_some_iff.1 hi
    exact trendOf_lt ht

/-- A decoded record is one R131 allows, whatever the layout. -/
theorem legalRecord_decodeRecord (cfg : Config) (num den : Word32) (din : Bytes) :
    LegalRecord cfg (decodeRecord cfg num den din) := by
  unfold decodeRecord
  suffices h : ∀ (values : List ValueField) (rec : Loop2Record), LegalRecord cfg rec →
      LegalRecord cfg (values.foldl (storeValue cfg num den din) rec) from
    h _ _ ⟨by simp [LegalDirection, emptyRecord], by simp [LegalDirection, emptyRecord], by simp [emptyRecord]⟩
  intro values
  induction values with
  | nil => intro rec h; exact h
  | cons v rest ih => intro rec h; exact ih _ (legalRecord_storeValue cfg num den din rec v h)

/-- Storing a value field and replacing the flag can be done in either order. -/
theorem storeValue_setCrcOk (cfg : Config) (num den : Word32) (din : Bytes) (rec : Loop2Record) (v : ValueField)
    (b : Bool) :
    { storeValue cfg num den din rec v with crcOk := b } = storeValue cfg num den din { rec with crcOk := b } v := by
  unfold storeValue
  cases v.target with
  | scaled a k => cases a <;> rfl
  | winddir a => cases a <;> rfl
  | rain a => cases a <;> rfl
  | trend => rfl

/-! A well-formed layout and trend table. -/

/-- Every fixed field lies in bytes 0 to 96 (R121). -/
theorem inside_of_mem_fixed {l : Layout} (h : l.WF) {f : FixedField} (hf : f ∈ l.fixed) :
    f.off + f.width.bytes ≤ 97 :=
  h.inside (f.off, f.width.bytes) (List.mem_append_left _ (List.mem_map_of_mem hf))

/-- Every value field lies in bytes 0 to 96 (R121). -/
theorem inside_of_mem_values {l : Layout} (h : l.WF) {v : ValueField} (hv : v ∈ l.values) :
    v.off + v.width.bytes ≤ 97 :=
  h.inside (v.off, v.width.bytes) (List.mem_append_right _ (List.mem_map_of_mem hv))

/-- A fixed field inside the frame matches when its number is its constant (R121). -/
theorem fixedDiffers_eq_false {din : Bytes} {f : FixedField} (h : f.off + f.width.bytes ≤ din.length) :
    fixedDiffers din f = false ↔ fieldNat din f.off f.width false h = f.value.toNat := by
  rw [← readField_toNat]
  simp [fixedDiffers, BitVec.toNat_inj]

/-- The trend attribute has one field, the signed byte at offset 3 (20_memory.md R51). -/
theorem trend_field {l : Layout} (h : l.WF) {v : ValueField} (hv : v ∈ l.values) (ht : v.target = .trend) :
    v.off = 3 ∧ v.width = .one ∧ v.signed = true := by
  obtain ⟨u, hu, hut, hu'⟩ := h.trendByte
  have huv : u = v := List.inj_on_of_nodup_map h.unique hu hv (by simp only [hut, ht])
  exact huv ▸ hu'

/-- Signed 8-bit codes, each at most once, are at most 256 (R142). -/
theorem length_trendTable {t : List TrendEntry} (h : TrendTableWF t) : t.length ≤ 256 := by
  have hsub : (t.map (·.code)).toFinset ⊆ Finset.Icc (-128) 127 := by
    intro x hx
    obtain ⟨e, he, rfl⟩ := List.mem_map.1 (List.mem_toFinset.1 hx)
    exact Finset.mem_Icc.2 (h.codes e he)
  have hcard := Finset.card_le_card hsub
  rw [List.toFinset_card_of_nodup h.unique] at hcard
  simpa using hcard

end Sys2Proof.Laws
end

