-- ==== Sys2Proof/Laws/PerInstr.lean ====
section
/-! SUPPORT. Per instruction: its command word matches its row of spec/opcode_table.json. -/

namespace Sys2Proof.Laws

/-- The match word of an instruction's row of spec/opcode_table.json. -/
def rowMatch : Instr → Word32
  | .crcStep _ _ => 0x00000001
  | .crcCompute _ _ => 0x00000002
  | .crcVerify _ => 0x00000003
  | .crcAppend _ => 0x00000004
  | .crcTable _ => 0x00000005
  | .frmDecode _ _ _ => 0x00000010
  | .fldExtract _ _ _ => 0x00000011
  | .fldScale _ _ => 0x00000012
  | .fldTrend _ => 0x00000013
  | .fldWinddir _ => 0x00000014
  | .fldRain _ _ _ => 0x00000015
  | .encCmd _ _ => 0x00000020
  | .cmdInfo _ => 0x00000021
  | .encHex _ => 0x00000022
  | .encText _ => 0x00000023
  | .datePack _ _ _ => 0x00000024
  | .dateUnpack _ => 0x00000025
  | .timePack _ _ => 0x00000026
  | .timeUnpack _ => 0x00000027
  | .rspMatch _ _ => 0x00000028
  | .rspInfo _ => 0x00000029

/-- The mask word of an instruction's row: an operation that takes a selector leaves bits 15..8 free. -/
def rowMask : Instr → Word32
  | .crcStep _ _ => 0xFFFFFFFF
  | .crcCompute _ _ => 0xFFFFFFFF
  | .crcVerify _ => 0xFFFFFFFF
  | .crcAppend _ => 0xFFFFFFFF
  | .crcTable _ => 0xFFFFFFFF
  | .frmDecode _ _ _ => 0xFFFFFFFF
  | .fldExtract _ _ _ => 0xFFFF00FF
  | .fldScale _ _ => 0xFFFF00FF
  | .fldTrend _ => 0xFFFFFFFF
  | .fldWinddir _ => 0xFFFFFFFF
  | .fldRain _ _ _ => 0xFFFFFFFF
  | .encCmd _ _ => 0xFFFF00FF
  | .cmdInfo _ => 0xFFFF00FF
  | .encHex _ => 0xFFFFFFFF
  | .encText _ => 0xFFFFFFFF
  | .datePack _ _ _ => 0xFFFFFFFF
  | .dateUnpack _ => 0xFFFFFFFF
  | .timePack _ _ => 0xFFFFFFFF
  | .timeUnpack _ => 0xFFFFFFFF
  | .rspMatch _ _ => 0xFFFF00FF
  | .rspInfo _ => 0xFFFF00FF

/-- The command word of an instruction agrees with its row. -/
def OpcodeRow.Statement (i : Instr) : Prop :=
  encodeWord i &&& rowMask i = rowMatch i

/-- An operation that takes a selector, whatever the selector. -/
theorem commandWord_and_mask (op sel : Byte) : commandWord op sel &&& 0xFFFF00FF = op.setWidth 32 := by
  unfold commandWord
  rw [BitVec.and_or_distrib_right]
  have h1 : (op.setWidth 32 : Word32) &&& 0xFFFF00FF = op.setWidth 32 := by
    apply BitVec.eq_of_getLsbD_eq
    intro i hi
    by_cases h : i < 8
    · have hm : (0xFFFF00FF#32).getLsbD i = true := by interval_cases i <;> rfl
      simp [h, hm]
    · simp [BitVec.getLsbD_of_ge _ _ (Nat.le_of_not_lt h)]
  have h2 : (sel.setWidth 32 : Word32) <<< 8 &&& 0xFFFF00FF = 0 := by
    apply BitVec.eq_of_getLsbD_eq
    intro i hi
    by_cases h : i < 8
    · simp [h]
    · by_cases h16 : i < 16
      · have hm : (0xFFFF00FF#32).getLsbD i = false := by interval_cases i <;> rfl
        simp [hm]
      · simp [BitVec.getLsbD_of_ge sel (i - 8) (by omega)]
  rw [h1, h2]
  exact BitVec.or_zero

namespace OpcodeRow

theorem crcStep (acc : Word32) (byte : Word32) : Statement (.crcStep acc byte) :=
  (by decide : commandWord 0x01 0 &&& 0xFFFFFFFF = 0x00000001)
theorem crcCompute (seed : Word32) (buf : Bytes) : Statement (.crcCompute seed buf) :=
  (by decide : commandWord 0x02 0 &&& 0xFFFFFFFF = 0x00000002)
theorem crcVerify (buf : Bytes) : Statement (.crcVerify buf) :=
  (by decide : commandWord 0x03 0 &&& 0xFFFFFFFF = 0x00000003)
theorem crcAppend (buf : Bytes) : Statement (.crcAppend buf) :=
  (by decide : commandWord 0x04 0 &&& 0xFFFFFFFF = 0x00000004)
theorem crcTable (index : Word32) : Statement (.crcTable index) :=
  (by decide : commandWord 0x05 0 &&& 0xFFFFFFFF = 0x00000005)
theorem frmDecode (num : Word32) (den : Word32) (buf : Bytes) : Statement (.frmDecode num den buf) :=
  (by decide : commandWord 0x10 0 &&& 0xFFFFFFFF = 0x00000010)
theorem fldExtract (fmt : FieldFormat) (offset : Word32) (buf : Bytes) : Statement (.fldExtract fmt offset buf) := commandWord_and_mask _ _
theorem fldScale (kind : ScaleKind) (raw : Word32) : Statement (.fldScale kind raw) := commandWord_and_mask _ _
theorem fldTrend (raw : Word32) : Statement (.fldTrend raw) :=
  (by decide : commandWord 0x13 0 &&& 0xFFFFFFFF = 0x00000013)
theorem fldWinddir (raw : Word32) : Statement (.fldWinddir raw) :=
  (by decide : commandWord 0x14 0 &&& 0xFFFFFFFF = 0x00000014)
theorem fldRain (clicks : Word32) (num : Word32) (den : Word32) : Statement (.fldRain clicks num den) :=
  (by decide : commandWord 0x15 0 &&& 0xFFFFFFFF = 0x00000015)
theorem encCmd (id : Byte) (params : Bytes) : Statement (.encCmd id params) := commandWord_and_mask _ _
theorem cmdInfo (id : Byte) : Statement (.cmdInfo id) := commandWord_and_mask _ _
theorem encHex (buf : Bytes) : Statement (.encHex buf) :=
  (by decide : commandWord 0x22 0 &&& 0xFFFFFFFF = 0x00000022)
theorem encText (text : Text) : Statement (.encText text) :=
  (by decide : commandWord 0x23 0 &&& 0xFFFFFFFF = 0x00000023)
theorem datePack (year : Word32) (month : Word32) (day : Word32) : Statement (.datePack year month day) :=
  (by decide : commandWord 0x24 0 &&& 0xFFFFFFFF = 0x00000024)
theorem dateUnpack (packed : Word32) : Statement (.dateUnpack packed) :=
  (by decide : commandWord 0x25 0 &&& 0xFFFFFFFF = 0x00000025)
theorem timePack (hour : Word32) (minute : Word32) : Statement (.timePack hour minute) :=
  (by decide : commandWord 0x26 0 &&& 0xFFFFFFFF = 0x00000026)
theorem timeUnpack (packed : Word32) : Statement (.timeUnpack packed) :=
  (by decide : commandWord 0x27 0 &&& 0xFFFFFFFF = 0x00000027)
theorem rspMatch (id : Byte) (buf : Bytes) : Statement (.rspMatch id buf) := commandWord_and_mask _ _
theorem rspInfo (id : Byte) : Statement (.rspInfo id) := commandWord_and_mask _ _

end OpcodeRow

end Sys2Proof.Laws
end

