-- ==== Sys2Proof/Laws/Roms.lean ====
section
/-! SUPPORT. The default tables are well formed, and the printed CRC table is the one its generator gives. -/

namespace Sys2Proof.Laws

open Sys2Proof.Machine

/-- The table printed in 10_state.md R22 is the one of its generator. -/
theorem crcTableWF_crcRom : CrcTableWF crcRom := by decide +kernel

theorem wf_l2Default : l2Default.WF where
  inside := by decide +kernel
  apart := by decide +kernel
  value := by decide +kernel
  unique := by decide +kernel
  complete := by decide +kernel
  tag := by decide +kernel
  trendByte := by decide +kernel
  recordType := by decide +kernel

theorem trendTableWF_default : TrendTableWF defaultTrendTable where
  codes := by decide +kernel
  unique := by decide +kernel

theorem cmdTableWF_default : CmdTableWF defaultCmdTable where
  defaults := by decide +kernel
  names := by decide +kernel
  size := by decide +kernel
  terminated := by decide +kernel

theorem tokenTableWF_default : TokenTableWF defaultTokenTable where
  defaults := by decide +kernel
  nonempty := by decide +kernel
  size := by decide +kernel

/-- The default parameters are well formed under every `TEXT_HIGH` and every `MAX_DIN` of at least 99. -/
theorem wf_defaultConfig (h : TextHigh) {n : Nat} (hn : 99 ≤ n) : (defaultConfig h n).WF where
  crcTable := crcTableWF_crcRom
  layout := wf_l2Default
  trendTable := trendTableWF_default
  cmdTable := cmdTableWF_default
  tokenTable := tokenTableWF_default
  maxDin := hn

end Sys2Proof.Laws
end

