-- ==== Sys2Proof/Tests/Slice0.lean ====
section
/-! SUPPORT. Tests: ill-formed parameters that the checks refuse, words written out from the spec's tables, one step per
vector of spec/95_test_vectors.md (named in each docstring), lines of assembler text, and a witness for the hypotheses of
every obligation that has any. -/

namespace Sys2Proof.Tests

set_option Elab.async false

open Sys2Proof.Machine Sys2Proof.Safety Sys2Proof.Laws

/-! ## Small states -/

/-- The default tables, `UTF8`, a bound of 4096. -/
def testConfig : Config := defaultConfig .utf8 4096

/-- The smallest bound the spec allows. -/
def smallConfig : Config := defaultConfig .utf8 99

def idle : State := { cfg := testConfig, inFlight := none, host := [], responses := [] }

def working (r : Request) : State := { cfg := testConfig, inFlight := some r, host := [], responses := [] }

/-- The response to an instruction's request. -/
def responseTo (i : Instr) : Option Response := responseAlone testConfig (encode i)

/-- Frame A of 95_test_vectors.md section 3. -/
def frameA : Bytes :=
  [0x4C, 0x4F, 0x4F, 0x14, 0x01, 0xFF, 0x7F, 0xE1, 0x74, 0xC1, 0x02, 0x2D, 0xD5, 0x02, 0x05, 0xFF,
   0x5A, 0x00, 0x2B, 0x00, 0x33, 0x00, 0x0C, 0x00, 0x0E, 0x01, 0xFF, 0x7F, 0xFF, 0x7F, 0x37, 0x00,
   0xFF, 0x3C, 0xFF, 0x49, 0x00, 0x48, 0x00, 0x4E, 0x00, 0x00, 0x00, 0x23, 0x64, 0x02, 0x19, 0x00,
   0xFF, 0xFF, 0x0C, 0x00, 0x00, 0x00, 0x03, 0x00, 0x2D, 0x00, 0x28, 0x00, 0x00, 0x00, 0x00, 0x00] ++
  [0x00, 0x00, 0x00, 0x00, 0x00, 0x00, 0x00, 0xFF, 0x00, 0x00, 0x00, 0x00, 0x00, 0x00, 0x00, 0x25,
   0x00, 0x00, 0x00, 0xFF, 0x7F, 0xFF, 0x7F, 0xFF, 0x7F, 0xFF, 0x7F, 0xFF, 0x7F, 0xFF, 0x7F, 0x0A,
   0x0D, 0x4E, 0x64]

/-- Frame C of 95_test_vectors.md section 3. -/
def frameC : Bytes :=
  [0x4C, 0x4F, 0x4F, 0xC4, 0x01, 0xFF, 0x7F, 0xE1, 0x74, 0xFF, 0xFF, 0x2D, 0x85, 0xFF, 0x00, 0xFF,
   0x69, 0x01, 0x2B, 0x00, 0x33, 0x00, 0x0C, 0x00, 0x68, 0x01, 0xFF, 0x7F, 0xFF, 0x7F, 0xEC, 0xFF,
   0xFF, 0x3C, 0xFF, 0xE7, 0xFF, 0xE2, 0xFF, 0xE1, 0xFF, 0x00, 0x00, 0x23, 0x64, 0x02, 0xFF, 0xFF,
   0x00, 0x00, 0x0C, 0x00, 0x00, 0x00, 0x03, 0x00, 0x2D, 0x00, 0x28, 0x00, 0x00, 0x00, 0x00, 0x00] ++
  [0x00, 0x00, 0x00, 0x00, 0x00, 0x00, 0x00, 0xFF, 0x00, 0x00, 0x00, 0x00, 0x00, 0x00, 0x00, 0x25,
   0x00, 0x00, 0x00, 0xFF, 0x7F, 0xFF, 0x7F, 0xFF, 0x7F, 0xFF, 0x7F, 0xFF, 0x7F, 0xFF, 0x7F, 0x0A,
   0x0D, 0xED, 0x21]

/-! ## Well-formedness: each check refuses a term -/

/-- A big-endian 8-bit field (30_encoding.md R66). -/
theorem test_wf_format : ¬ (Instr.fldExtract ⟨false, true, true⟩ 0 []).WF := by decide

/-- A field at byte 97 (42_frame_parser.md R121). -/
theorem test_wf_layout_inside : ¬ Layout.WF ⟨[⟨96, .two, 0⟩], []⟩ :=
  fun h => absurd h.inside (by decide)

/-- Two fields that share byte 5. -/
theorem test_wf_layout_apart : ¬ Layout.WF ⟨[⟨4, .two, 0⟩, ⟨5, .one, 0⟩], []⟩ :=
  fun h => absurd h.apart (by decide)

/-- A constant of 9 bits for one byte. -/
theorem test_wf_layout_value : ¬ Layout.WF ⟨[⟨4, .one, 0x100⟩], []⟩ :=
  fun h => absurd h.value (by decide)

/-- Two fields for one attribute. -/
theorem test_wf_layout_unique :
    ¬ Layout.WF ⟨[], [⟨.trend, 3, .one, true, none⟩, ⟨.trend, 7, .one, true, none⟩]⟩ :=
  fun h => absurd h.unique (by decide)

/-- No field for most attributes. -/
theorem test_wf_layout_complete : ¬ Layout.WF ⟨[], [⟨.trend, 3, .one, true, none⟩]⟩ :=
  fun h => absurd h.complete (by decide)

/-- A tag byte that no fixed field checks, and a 2-byte tag field (20_memory.md R51). -/
theorem test_wf_layout_tag :
    ¬ Layout.WF ⟨[⟨0, .one, 0x4C⟩, ⟨2, .one, 0x4F⟩], []⟩ ∧ ¬ Layout.WF ⟨[⟨0, .two, 0x4F4C⟩, ⟨2, .one, 0x4F⟩], []⟩ :=
  ⟨fun h => absurd h.tag (by decide), fun h => absurd h.tag (by decide)⟩

/-- The trend at byte 48, and an unsigned trend byte (R51). -/
theorem test_wf_layout_trendByte :
    ¬ Layout.WF ⟨[], [⟨.trend, 48, .one, true, none⟩]⟩ ∧ ¬ Layout.WF ⟨[], [⟨.trend, 3, .one, false, none⟩]⟩ :=
  ⟨fun h => absurd h.trendByte (by decide), fun h => absurd h.trendByte (by decide)⟩

/-- A record type of 0. -/
theorem test_wf_layout_recordType : ¬ Layout.WF ⟨[⟨4, .one, 0⟩], []⟩ :=
  fun h => absurd h.recordType (by decide)

/-- A code of 9 bits (R142). -/
theorem test_wf_trend_codes : ¬ TrendTableWF [⟨"UP", 128⟩] :=
  fun h => absurd h.codes (by decide)

/-- One code twice. -/
theorem test_wf_trend_unique : ¬ TrendTableWF [⟨"UP", 20⟩, ⟨"RISING", 20⟩] :=
  fun h => absurd h.unique (by decide)

/-- A table without the five default entries (43_command_encoder.md R160). -/
theorem test_wf_commands_defaults : ¬ CmdTableWF [] :=
  fun h => absurd h.defaults (by decide)

/-- A second entry named TEST (10_state.md R23). -/
theorem test_wf_commands_names : ¬ CmdTableWF (defaultCmdTable ++ [⟨"TEST", [0x0A], true, false⟩]) :=
  fun h => absurd h.names (by decide +kernel)

/-- An id that is no byte. -/
theorem test_wf_commands_size :
    ¬ CmdTableWF (defaultCmdTable ++ List.replicate 252 ⟨"MORE", [0x0A], true, false⟩) :=
  fun h => absurd h.size (by decide +kernel)

/-- A complete template without its terminator (R160). -/
theorem test_wf_commands_terminated : ¬ CmdTableWF (defaultCmdTable ++ [⟨"VER", [0x56], true, false⟩]) :=
  fun h => absurd h.terminated (by decide +kernel)

/-- A table without the four default entries (R161). -/
theorem test_wf_tokens_defaults : ¬ TokenTableWF [⟨"NAK", [0x21]⟩] :=
  fun h => absurd h.defaults (by decide)

/-- An empty token (10_state.md R24). -/
theorem test_wf_tokens_nonempty : ¬ TokenTableWF (defaultTokenTable ++ [⟨"NONE", []⟩]) :=
  fun h => absurd h.nonempty (by decide +kernel)

/-- An id that is no byte. -/
theorem test_wf_tokens_size : ¬ TokenTableWF (defaultTokenTable ++ List.replicate 253 ⟨"NAK", [0x21]⟩) :=
  fun h => absurd h.size (by decide +kernel)

/-- A table of zeros (10_state.md R22). -/
theorem test_wf_crcTable : ¬ CrcTableWF (Vector.replicate 256 0) :=
  fun h => absurd (h 1) (by decide)

/-- A bound under 99 (00_scope.md R6). -/
theorem test_wf_maxDin : ¬ (defaultConfig .utf8 98).WF :=
  fun h => absurd h.maxDin (by decide)

/-! ## Words written out from 30_encoding.md R61 and R64: `RSV`, `SEL`, `OP` -/

theorem test_word_crcStep : decodeTableWord 32 0b0000000000000000_00000000_00000001 = some (.crcStep 0 0) := by decide
theorem test_word_crcCompute : decodeTableWord 32 0b0000000000000000_00000000_00000010 = some (.crcCompute 0 []) := by
  decide
theorem test_word_crcVerify : decodeTableWord 32 0b0000000000000000_00000000_00000011 = some (.crcVerify []) := by decide
theorem test_word_crcAppend : decodeTableWord 32 0b0000000000000000_00000000_00000100 = some (.crcAppend []) := by decide
theorem test_word_crcTable : decodeTableWord 32 0b0000000000000000_00000000_00000101 = some (.crcTable 0) := by decide
theorem test_word_frmDecode : decodeTableWord 32 0b0000000000000000_00000000_00010000 = some (.frmDecode 0 0 []) := by
  decide
/-- `s16be`: `W`, `S` and `E` set (R66). -/
theorem test_word_fldExtract :
    decodeTableWord 32 0b0000000000000000_00000111_00010001 = some (.fldExtract ⟨true, true, true⟩ 0 []) := by decide
/-- `s8`: `S` alone (R66). -/
theorem test_word_fldExtract_s8 :
    decodeTableWord 32 0b0000000000000000_00000010_00010001 = some (.fldExtract ⟨false, true, false⟩ 0 []) := by decide
/-- `u16le`: `W` alone (R66). -/
theorem test_word_fldExtract_u16le :
    decodeTableWord 32 0b0000000000000000_00000001_00010001 = some (.fldExtract ⟨true, false, false⟩ 0 []) := by decide
theorem test_word_fldScale :
    decodeTableWord 32 0b0000000000000000_00000010_00010010 = some (.fldScale .hundredths 0) := by decide
theorem test_word_fldTrend : decodeTableWord 32 0b0000000000000000_00000000_00010011 = some (.fldTrend 0) := by decide
theorem test_word_fldWinddir : decodeTableWord 32 0b0000000000000000_00000000_00010100 = some (.fldWinddir 0) := by
  decide
theorem test_word_fldRain : decodeTableWord 32 0b0000000000000000_00000000_00010101 = some (.fldRain 0 0 0) := by decide
/-- Any `SEL` is a command id (R68). -/
theorem test_word_encCmd : decodeTableWord 32 0b0000000000000000_11111111_00100000 = some (.encCmd 255 []) := by decide
theorem test_word_cmdInfo : decodeTableWord 32 0b0000000000000000_00000100_00100001 = some (.cmdInfo 4) := by decide
theorem test_word_encHex : decodeTableWord 32 0b0000000000000000_00000000_00100010 = some (.encHex []) := by decide
theorem test_word_encText : decodeTableWord 32 0b0000000000000000_00000000_00100011 = some (.encText []) := by decide
theorem test_word_datePack : decodeTableWord 32 0b0000000000000000_00000000_00100100 = some (.datePack 0 0 0) := by
  decide
theorem test_word_dateUnpack : decodeTableWord 32 0b0000000000000000_00000000_00100101 = some (.dateUnpack 0) := by
  decide
theorem test_word_timePack : decodeTableWord 32 0b0000000000000000_00000000_00100110 = some (.timePack 0 0) := by decide
theorem test_word_timeUnpack : decodeTableWord 32 0b0000000000000000_00000000_00100111 = some (.timeUnpack 0) := by
  decide
theorem test_word_rspMatch : decodeTableWord 32 0b0000000000000000_00000010_00101000 = some (.rspMatch 2 []) := by
  decide
theorem test_word_rspInfo : decodeTableWord 32 0b0000000000000000_00000011_00101001 = some (.rspInfo 3) := by decide

/-- V-ILL-01 to V-ILL-07: words with an `OP` outside the map. -/
theorem test_words_outside_map :
    [0x00, 0x06, 0x0F, 0x16, 0x1F, 0x2A, 0xFF].map (decodeTableWord 32) = List.replicate 7 none := by decide

/-- V-FLD-15, V-FLD-16, V-FLD-26, V-ILL-08, V-ILL-10: a `SEL` or an `RSV` that is not legal. -/
theorem test_words_illegal :
    [0x411, 0x811, 0x412, 0x10001, 0x101].map (decodeTableWord 32) = List.replicate 5 none := by decide

/-- The operands of a request in the fields R65 gives them. -/
theorem test_operands_frmDecode :
    encode (.frmDecode 1 100 [0x4C]) =
      { cmd := 0x10, s0 := 1, s1 := 100, s2 := 0, din := [0x4C], dtext := [] } := by decide

/-- The same for the text of ENC.TEXT. -/
theorem test_operands_encText :
    encode (.encText [0x41]) = { cmd := 0x23, s0 := 0, s1 := 0, s2 := 0, din := [], dtext := [0x41] } := by decide

/-- The first request after reset runs: the host's check, on one word. -/
theorem test_withFetchWord :
    (match step (State.reset.withFetchWord 32 0x00000101) with
      | .next t => t.responses
      | _ => []) = [{ status := 0xFF, r0 := some 2 }] := by decide +kernel

/-! ## One request per vector -/

/-- V-CRC-30. -/
theorem test_crcStep : responseTo (.crcStep 0x1234 0x56) = some { status := 0, r0 := some 0x3C40 } := by decide +kernel

/-- V-CRC-35. -/
theorem test_crcStep_byte : responseTo (.crcStep 0 0x100) = some { status := 0x22, r0 := some 2 } := by decide +kernel

/-- V-CRC-14: "ABC", where the index must be masked. -/
theorem test_crcCompute_masks :
    responseTo (.crcCompute 0 [0x41, 0x42, 0x43]) = some { status := 0, r0 := some 0x3994 } := by decide +kernel

/-- V-CRC-23: "6789" after the checksum of "12345" is the check value of R108. -/
theorem test_crcCompute_seed :
    responseTo (.crcCompute 0x546C [0x36, 0x37, 0x38, 0x39]) = some { status := 0, r0 := some 0x31C3 } := by
  decide +kernel

/-- V-SRC-01. -/
theorem test_crcVerify : responseTo (.crcVerify frameA) = some { status := 0, r0 := some 1 } := by decide +kernel

/-- V-CRC-12: the checksum low byte first. -/
theorem test_crcVerify_swapped :
    responseTo (.crcVerify [0x54, 0x45, 0x53, 0x54, 0x0A, 0x42, 0x2A]) = some { status := 0, r0 := some 0 } := by
  decide +kernel

/-- V-CRC-13. -/
theorem test_crcAppend :
    responseTo (.crcAppend [0x54, 0x45, 0x53, 0x54, 0x0A]) =
      some { status := 0, r0 := some 0x2A42, dout := some [0x54, 0x45, 0x53, 0x54, 0x0A, 0x2A, 0x42] } := by
  decide +kernel

/-- V-ILL-22: 99 bytes under a bound of 99; `dout` is not bounded. -/
theorem test_crcAppend_unbounded :
    responseAlone smallConfig (encode (.crcAppend (List.replicate 99 0))) =
      some { status := 0, r0 := some 0, dout := some (List.replicate 101 0) } := by decide +kernel

/-- V-CRC-41. -/
theorem test_crcTable : responseTo (.crcTable 0x44) = some { status := 0, r0 := some 0x0840 } := by decide +kernel

/-- V-CRC-44. -/
theorem test_crcTable_index : responseTo (.crcTable 256) = some { status := 0x22, r0 := some 1 } := by decide +kernel

/-- Frame C of section 3.1: negative values, a direction above 360, the largest click count. -/
theorem test_frmDecode :
    ((responseTo (.frmDecode 1 5 frameC)).bind (·.record)).any (fun rec =>
      rec.crcOk && rec.barTrend == some 0 && rec.outsideTemp == some (mkRat (-123) 10) && rec.windDir == none &&
        rec.gustDir == some 360 && rec.stormRain == some 13107) = true := by decide +kernel

/-- V-FRM-03: bytes 0 and 4 differ; the lower offset is reported. -/
theorem test_frmDecode_fixed :
    responseTo (.frmDecode 1 100 ((frameA.set 0 0x6C).set 4 0x02)) =
      some { status := 0x11, r0 := some 0, r1 := some 0x4C, r2 := some 0x6C } := by decide +kernel

/-- V-FLD-06. -/
theorem test_fldExtract :
    responseTo (.fldExtract ⟨true, true, true⟩ 12 frameA) =
      some { status := 0, r0 := some 0xFFFFD502, r1 := some 0xD502 } := by decide +kernel

/-- V-FLD-10: 98 + 2 > 99. -/
theorem test_fldExtract_end :
    responseTo (.fldExtract ⟨true, true, false⟩ 98 frameA) = some { status := 0x22, r0 := some 1 } := by decide +kernel

/-- V-FLD-21. -/
theorem test_fldScale :
    responseTo (.fldScale .tenths 0xFFFFFF85) = some { status := 0, rq := some (mkRat (-123) 10) } := by decide +kernel

/-- V-FLD-24. -/
theorem test_fldScale_min :
    responseTo (.fldScale .tenths 0x80000000) = some { status := 0, rq := some (mkRat (-1073741824) 5) } := by
  decide +kernel

/-- V-FLD-28: -60. -/
theorem test_fldTrend : responseTo (.fldTrend 0xC4) = some { status := 0, r0 := some 0, r1 := some 1 } := by
  decide +kernel

/-- V-FLD-32. -/
theorem test_fldTrend_unknown : responseTo (.fldTrend 0x50) = some { status := 0, r1 := some 0 } := by decide +kernel

/-- V-FLD-38. -/
theorem test_fldWinddir : responseTo (.fldWinddir 360) = some { status := 0, r0 := some 360, r1 := some 1 } := by
  decide +kernel

/-- V-FLD-39. -/
theorem test_fldWinddir_above : responseTo (.fldWinddir 361) = some { status := 0, r1 := some 0 } := by decide +kernel

/-- V-FLD-47. -/
theorem test_fldRain :
    responseTo (.fldRain 65535 0xFFFFFFFF 1) = some { status := 0, rq := some 281470681677825 } := by decide +kernel

/-- V-FLD-48. -/
theorem test_fldRain_ratio : responseTo (.fldRain 1 1 0) = some { status := 0x22, r0 := some 3 } := by decide +kernel

/-- V-ENC-03. -/
theorem test_encCmd :
    responseTo (.encCmd 2 [0x31, 0x0A]) =
      some { status := 0, dout := some [0x4C, 0x4F, 0x4F, 0x50, 0x20, 0x31, 0x0A] } := by decide +kernel

/-- V-SRC-16. -/
theorem test_encCmd_unexpected : responseTo (.encCmd 1 [0x78]) = some { status := 0x01, r0 := some 1 } := by
  decide +kernel

/-- V-ENC-12. -/
theorem test_cmdInfo :
    responseTo (.cmdInfo 3) =
      some { status := 0, r0 := some 3, r1 := some 7, dout := some [0x43, 0x4C, 0x52, 0x4C, 0x4F, 0x47, 0x0A] } := by
  decide +kernel

/-- V-ENC-14. -/
theorem test_cmdInfo_id : responseTo (.cmdInfo 5) = some { status := 0x21, r0 := some 5 } := by decide +kernel

/-- V-ENC-16. -/
theorem test_encHex :
    responseTo (.encHex [0x30, 0x41, 0x31, 0x62]) = some { status := 0, dout := some [0x0A, 0x1B] } := by decide +kernel

/-- V-ENC-20. -/
theorem test_encHex_char :
    responseTo (.encHex [0x30, 0x78]) = some { status := 0x04, r0 := some 1, r2 := some 0x78 } := by decide +kernel

/-- V-ENC-28. -/
theorem test_encText :
    responseTo (.encText [0x1F600]) = some { status := 0, dout := some [0xF0, 0x9F, 0x98, 0x80] } := by decide +kernel

/-- V-ENC-29. -/
theorem test_encText_surrogate :
    responseTo (.encText [0xD800]) = some { status := 0x05, r0 := some 0, r2 := some 0xD800 } := by decide +kernel

/-- V-ENC-31. -/
theorem test_datePack : responseTo (.datePack 2024 3 15) = some { status := 0, r0 := some 0x306F } := by decide +kernel

/-- V-ENC-41: the first field out of range. -/
theorem test_datePack_first : responseTo (.datePack 1999 13 0) = some { status := 0x20, r0 := some 1 } := by
  decide +kernel

/-- V-ENC-42. -/
theorem test_dateUnpack :
    responseTo (.dateUnpack 0x306F) = some { status := 0, r0 := some 2024, r1 := some 3, r2 := some 15 } := by
  decide +kernel

/-- V-ENC-49. -/
theorem test_dateUnpack_day : responseTo (.dateUnpack 0x0020) = some { status := 0x20, r0 := some 3 } := by
  decide +kernel

/-- V-ENC-52. -/
theorem test_timePack : responseTo (.timePack 13 45) = some { status := 0, r0 := some 1345 } := by decide +kernel

/-- V-ENC-56. -/
theorem test_timePack_hour : responseTo (.timePack 24 60) = some { status := 0x20, r0 := some 1 } := by decide +kernel

/-- V-ENC-59. -/
theorem test_timeUnpack : responseTo (.timeUnpack 2359) = some { status := 0, r0 := some 23, r1 := some 59 } := by
  decide +kernel

/-- V-ENC-61. -/
theorem test_timeUnpack_hour : responseTo (.timeUnpack 2400) = some { status := 0x20, r0 := some 1 } := by
  decide +kernel

/-- V-ENC-67. -/
theorem test_rspMatch : responseTo (.rspMatch 1 [0x0A, 0x0D]) = some { status := 0, r0 := some 1 } := by decide +kernel

/-- V-ENC-66. -/
theorem test_rspMatch_longer : responseTo (.rspMatch 0 [0x06, 0x06]) = some { status := 0, r0 := some 0 } := by
  decide +kernel

/-- V-ENC-76. -/
theorem test_rspInfo :
    responseTo (.rspInfo 3) =
      some { status := 0, r1 := some 6, dout := some [0x44, 0x4F, 0x4E, 0x45, 0x0A, 0x0D] } := by decide +kernel

/-- V-ENC-77. -/
theorem test_rspInfo_id : responseTo (.rspInfo 4) = some { status := 0x21, r0 := some 4 } := by decide +kernel

/-- V-ILL-09 and V-ILL-14: `RSV` before `SEL`; an unused field last. -/
theorem test_illegal_order :
    (responseAlone testConfig ⟨0x00010011, 0, 0, 0, [0, 0], []⟩,
      responseAlone testConfig ⟨0x00000001, 1, 2, 3, [], []⟩) =
      (some { status := 0xFF, r0 := some 1 }, some { status := 0xFF, r0 := some 3 }) := by decide +kernel

/-! ## Assembler text (30_encoding.md R73 to R75) -/

/-- The FLD.EXTRACT line of R73 with the buffer of V-FLD-13. -/
theorem test_asm_extract :
    assemble testConfig [] "fld.extract.s16le [0x85, 0xFF], 0" =
      some (.one (.fldExtract ⟨true, true, false⟩ 0 [0x85, 0xFF])) := by decide +kernel

/-- V-ENC-03: a name of the command table and a string with an escape. -/
theorem test_asm_command :
    assemble testConfig [] "enc.cmd LOOP, \"1\\n\"" = some (.one (.encCmd 2 [0x31, 0x0A])) := by decide +kernel

/-- An unknown name is an assembly error (R75). -/
theorem test_asm_unknown : assemble testConfig [] "enc.cmd NOSUCH" = none := by decide +kernel

/-- The ratio has no default (R75). -/
theorem test_asm_ratio : assemble testConfig [("A", frameA)] "frm.decode frame:A" = none := by decide +kernel

/-- The frame of V-SRC-06 by its name. -/
theorem test_asm_frame :
    assemble testConfig [("A", frameA)] "frm.decode frame:A, 1, 100" = some (.one (.frmDecode 1 100 frameA)) := by
  decide +kernel

/-! ## Witnesses: the hypotheses of each obligation, met by a state and operands, at the boundary values of each clause -/

/-- A state with a request in flight, an earlier response and a waiting host. -/
def busy (r : Request) : State :=
  { cfg := testConfig, inFlight := some r, host := [.wait, .reset], responses := [{ status := 0x00, r0 := some 1 }] }

theorem inv_idle : Inv idle :=
  ⟨wf_defaultConfig .utf8 (by decide), fun _ h => absurd h List.not_mem_nil⟩

theorem inv_busy (r : Request) : Inv (busy r) := by
  refine ⟨wf_defaultConfig .utf8 (by decide), fun p hp => ?_⟩
  obtain rfl := List.mem_singleton.1 hp
  exact .inl ⟨rfl, fun _ h => nomatch h⟩

/-- A request is answered, from a state that meets the invariant. -/
theorem witness_InvariantKeptByEveryStep :
    ∃ r t, Inv (busy r) ∧ step (busy r) = .next t ∧ t.responses.length = 2 :=
  ⟨encode (.crcTable 1), _, inv_busy _, rfl, rfl⟩

theorem witness_StepRunsDecodedInstruction :
    ∃ r i, (busy r).inFlight = some r ∧ (busy r).host.head? ≠ some .reset ∧ decode r = .ok i :=
  ⟨encode (.fldTrend 20), .fldTrend 20, rfl, by decide, rfl⟩

/-- For NoStepWritesTables too. -/
theorem witness_AtMostOneResponsePerStep :
    (∃ t, step idle = .next t ∧ t.responses = idle.responses) ∧
      ∃ r t p, step (busy r) = .next t ∧ t.responses = (busy r).responses ++ [p] :=
  ⟨⟨_, rfl, rfl⟩, encode (.crcTable 1), _, _, rfl, rfl⟩

theorem witness_ResponseIndependentOfHistory :
    ∃ r, (busy r).cfg = (working r).cfg ∧ (busy r).inFlight = some r ∧ (working r).inFlight = some r ∧
      (busy r).host.head? ≠ some .reset ∧ (working r).host.head? ≠ some .reset ∧
      (busy r).responses ≠ (working r).responses :=
  ⟨encode (.crcTable 1), rfl, rfl, rfl, by decide, by decide, by decide⟩

theorem witness_RequestsAnsweredInOrder :
    ∃ (s : State) (requests : List Request), s.inFlight = none ∧ s.host = issueAll requests ∧ requests.length = 2 :=
  ⟨{ idle with host := issueAll [encode (.crcTable 1), encode (.rspInfo 0)] }, _, rfl, rfl, rfl⟩

/-- Reset while a request is in flight, and a request after it. -/
theorem witness_ResetAbortsUnfinishedRequest :
    ∃ (s : State) (q : Request) (after : List HostEvent), s.inFlight ≠ none ∧ s.host = .reset :: .issue q :: after :=
  ⟨{ busy (encode (.crcTable 1)) with host := [.reset, .issue (encode (.crcTable 2))] }, _, _, by decide, rfl⟩

theorem witness_HostTurnOfIdleBlock :
    (idle.inFlight = none ∧ idle.host = []) ∧
    (∃ (s : State) (r : Request), s.inFlight = none ∧ s.host = [.issue r]) ∧
    (∃ s : State, s.inFlight = none ∧ s.host = [.wait]) :=
  ⟨⟨rfl, rfl⟩, ⟨{ idle with host := [.issue (encode (.crcTable 1))] }, _, rfl, rfl⟩, ⟨{ idle with host := [.wait] }, rfl, rfl⟩⟩

/-- The four causes: the last `OP` of the map plus 1; `RSV` 1 with a wrong `SEL`; `SEL` 4 for FLD.SCALE; `s2` of
CRC.STEP. -/
theorem witness_IllegalRequestFirstCause :
    (0x2A#8 ∉ opCodes) ∧
    (0x01#8 ∈ opCodes ∧ (0x00010101#32).extractLsb' 16 16 ≠ (0 : Word16)) ∧
    (0x12#8 ∈ opCodes ∧ ¬ selLegal 0x12 4) ∧
    (0x01#8 ∈ opCodes ∧ selLegal 0x01 0 ∧ ¬ unusedNeutral 0x01 ⟨0x01, 1, 2, 3, [], []⟩) := by
  simp only [selLegal, unusedNeutral]
  decide

/-- An error and a success. -/
theorem witness_ErrorsRaisedOnlyWhereListed :
    (∃ r, exec (.crcTable 256) idle = .next (answered idle r) ∧ r.status = 0x22) ∧
      ∃ r, exec (.crcTable 255) idle = .next (answered idle r) ∧ r.status = 0x00 :=
  ⟨⟨_, rfl, rfl⟩, ⟨_, rfl, rfl⟩⟩

/-- One byte and one code point too many; and a frame of 100 bytes. -/
theorem witness_LongBufferRefusedFirst :
    boundedLength (.crcCompute 0x10000 (List.replicate 100 0)) = some 100 ∧
      boundedLength (.encText (List.replicate 100 0)) = some 100 ∧ smallConfig.maxDin < 100 ∧
      (frameA ++ [0]).length ≠ 99 := by decide

theorem witness_DecodeOfEncode : (Instr.fldExtract ⟨true, true, true⟩ 97 []).WF := by decide

theorem witness_EncodeOfDecode : ∃ r i, decode r = .ok i :=
  ⟨⟨0x00000711, 97, 0, 0, [0x4E], []⟩, .fldExtract ⟨true, true, true⟩ 97 [0x4E], rfl⟩

theorem witness_CrcStepResult :
    2 ^ 16 ≤ (0x10000 : Word32).toNat ∧
    ((0xFFFF : Word32).toNat < 2 ^ 16 ∧ 2 ^ 8 ≤ (0x100 : Word32).toNat) ∧
    ((0xFFFF : Word32).toNat < 2 ^ 16 ∧ (0xFF : Word32).toNat < 2 ^ 8) := by decide

theorem witness_CrcComputeResult :
    frameA.length ≤ testConfig.maxDin ∧ 2 ^ 16 ≤ (0x10000 : Word32).toNat ∧ (0xFFFF : Word32).toNat < 2 ^ 16 := by
  decide

theorem witness_CrcOfSplitBuffer :
    (0xFFFF : Word32).toNat < 2 ^ 16 ∧ (frameA.take 60 ++ frameA.drop 60).length ≤ testConfig.maxDin := by decide

theorem witness_CrcVerifyResult : (List.replicate 99 (0 : Byte)).length ≤ smallConfig.maxDin := by decide

theorem witness_LeadingZerosUndetected :
    CrcTableWF smallConfig.crcTable ∧ 98 + [(1 : Byte)].length ≤ smallConfig.maxDin :=
  ⟨crcTableWF_crcRom, by decide⟩

/-- A buffer whose appended form still fits, and one whose appended form does not. -/
theorem witness_CrcAppendThenVerify :
    CrcTableWF smallConfig.crcTable ∧ (List.replicate 99 (0 : Byte)).length ≤ smallConfig.maxDin ∧
      (List.replicate 97 (0 : Byte) ++ [BitVec.ofNat 8 (0 / 256), BitVec.ofNat 8 0]).length ≤ smallConfig.maxDin :=
  ⟨crcTableWF_crcRom, by decide, by decide⟩

/-- Frame A, its last byte and its highest bit (V-CRC-15). -/
theorem witness_SingleBitErrorsDetected :
    CrcTableWF idle.cfg.crcTable ∧ 98 < frameA.length ∧ frameA.length ≤ idle.cfg.maxDin ∧ 7 < 8 ∧
      exec (.crcVerify frameA) idle = .next (answered idle { status := 0x00, r0 := some 1 }) :=
  ⟨crcTableWF_crcRom, by decide, by decide, by decide, by
    have h : checksumValid testConfig frameA = true := by decide +kernel
    show answer idle (bounded testConfig frameA (okay (some (boolWord (checksumValid testConfig frameA))))) = _
    rw [h, bounded_of_le (by decide)]
    rfl⟩

theorem witness_CrcTableResult : 256 ≤ (256 : Word32).toNat ∧ (255 : Word32).toNat < 256 := by decide

theorem witness_CrcTableIsLinear : CrcTableWF idle.cfg.crcTable := crcTableWF_crcRom

/-- 98 and 100 bytes; 99 bytes with the smallest bound and no ratio. -/
theorem witness_FrmDecodeChecksLengthThenRatio :
    (frameA.take 98).length ≠ 99 ∧ (frameA ++ [0]).length ≠ 99 ∧
      frameA.length = 99 ∧ 99 ≤ smallConfig.maxDin ∧ (0 : Word32) = 0 := by decide

/-- Byte 4 of frame A set to 0 (V-FRM-01): the fields before it match. -/
theorem witness_FrmDecodeReportsFirstFixedMismatch :
    idle.cfg.WF ∧ (frameA.set 4 0).length = 99 ∧ (100 : Word32) ≠ 0 ∧ ⟨4, .one, 0x01⟩ ∈ idle.cfg.layout.fixed ∧
      fieldNat (frameA.set 4 0) 4 .one false (by decide) ≠ 1 ∧
      ∀ g ∈ idle.cfg.layout.fixed, g.off < 4 →
        ∀ h', fieldNat (frameA.set 4 0) g.off g.width false h' = g.value.toNat :=
  ⟨wf_defaultConfig .utf8 (by decide), by decide, by decide, by decide, by decide, by decide +kernel⟩

/-- Frame A, a field of it that does not hold its sentinel, and that field in the frame of V-SRC-05. -/
theorem witness_FrmDecodeReturnsRecord :
    idle.cfg.WF ∧ frameA.length = 99 ∧ (100 : Word32) ≠ 0 ∧
      (∀ f ∈ idle.cfg.layout.fixed, ∀ h, fieldNat frameA f.off f.width false h = f.value.toNat) ∧
      ⟨.scaled .outsideTemp .tenths, 12, .two, true, some 0x7FFF⟩ ∈ idle.cfg.layout.values ∧
      (some (0x7FFF : Word16)).map (·.toNat) ≠ some (fieldNat frameA 12 .two false (by decide)) ∧
      (some (0x7FFF : Word16)).map (·.toNat)
        = some (fieldNat ((frameA.set 12 0xFF).set 13 0x7F) 12 .two false (by decide)) :=
  ⟨wf_defaultConfig .utf8 (by decide), by decide, by decide, by decide +kernel, by decide, by decide, by decide⟩

/-- Frame A, and frame A with the ignored byte 60 set to 1 (V-FRM-12). -/
theorem witness_IgnoredBytesReachOnlyTheFlag :
    idle.cfg.WF ∧ frameA.length = 99 ∧ (frameA.set 60 1).length = 99 ∧ frameA ≠ frameA.set 60 1 ∧
      ∀ p ∈ idle.cfg.layout.spans, ∀ i, p.1 ≤ i → i < p.1 + p.2 → frameA[i]? = (frameA.set 60 1)[i]? :=
  ⟨wf_defaultConfig .utf8 (by decide), by decide, by decide, by decide, by decide +kernel⟩

/-- Frame A and frame C are both accepted. -/
theorem witness_AcceptedFramesShareTagAndType :
    idle.cfg.WF ∧
      (∃ rec, exec (.frmDecode 1 100 frameA) idle = .next (answered idle { status := 0x00, record := some rec })) ∧
      ∃ rec, exec (.frmDecode 1 5 frameC) idle = .next (answered idle { status := 0x00, record := some rec }) := by
  have hA : firstFixedMismatch idle.cfg.layout.fixed frameA = none := by decide +kernel
  have hC : firstFixedMismatch idle.cfg.layout.fixed frameC = none := by decide +kernel
  refine ⟨wf_defaultConfig .utf8 (by decide), ⟨decodeRecord testConfig 1 100 frameA, ?_⟩,
    ⟨decodeRecord testConfig 1 5 frameC, ?_⟩⟩
  · show answer idle (if frameA.length ≠ 99 then _ else bounded testConfig frameA (if (100 : Word32) = 0 then _ else _)) = _
    rw [if_neg (by decide), bounded_of_le (by decide), if_neg (by decide), hA]
    rfl
  · show answer idle (if frameC.length ≠ 99 then _ else bounded testConfig frameC (if (5 : Word32) = 0 then _ else _)) = _
    rw [if_neg (by decide), bounded_of_le (by decide), if_neg (by decide), hC]
    rfl

/-- Frame A is decoded and its outside temperature, no sentinel, is read from byte 12. -/
theorem witness_ExtractAndScaleAgreeWithDecode :
    idle.cfg.WF ∧
      (∃ rec, exec (.frmDecode 1 100 frameA) idle = .next (answered idle { status := 0x00, record := some rec })) ∧
      ⟨.scaled .outsideTemp .tenths, 12, .two, true, some 0x7FFF⟩ ∈ idle.cfg.layout.values ∧
      (some (0x7FFF : Word16)).map (·.setWidth 32) ≠ some (725 : Word32) := by
  refine ⟨wf_defaultConfig .utf8 (by decide), ⟨decodeRecord testConfig 1 100 frameA, ?_⟩, by decide, by decide⟩
  have h : firstFixedMismatch testConfig.layout.fixed frameA = none := by decide +kernel
  show answer idle (if frameA.length ≠ 99 then _ else bounded testConfig frameA (if (100 : Word32) = 0 then _ else _)) = _
  rw [if_neg (by decide), bounded_of_le (by decide), if_neg (by decide)]
  rw [show firstFixedMismatch idle.cfg.layout.fixed frameA = none from h]
  rfl

/-- The last place a 16-bit field fits, the first it does not, and the last byte. -/
theorem witness_FldExtractResult :
    frameA.length ≤ idle.cfg.maxDin ∧
      frameA.length < (98 : Word32).toNat + Width.two.bytes ∧ (97 : Word32).toNat + Width.two.bytes ≤ frameA.length ∧
      (98 : Word32).toNat + Width.one.bytes ≤ frameA.length := by decide

/-- The checksum bytes of frame A. -/
theorem witness_FldExtractMixedWidths :
    frameA.length ≤ idle.cfg.maxDin ∧ (98 : Word32).toNat = (97 : Word32).toNat + 1 ∧
      (97 : Word32).toNat + 2 ≤ frameA.length := by decide

/-- Code -60 at index 0, code 80 nowhere. -/
theorem witness_FldTrendResult :
    TrendTableWF idle.cfg.trendTable ∧ 256 ≤ (256 : Word32).toNat ∧
      ((0xC4 : Word32).toNat < 256 ∧ idle.cfg.trendTable[0]? = some ⟨"FALLING_RAPIDLY", -60⟩ ∧
        (-60 : Int) = signedInt .one true (0xC4 : Word32).toNat) ∧
      ((0x50 : Word32).toNat < 256 ∧ ∀ e ∈ idle.cfg.trendTable, e.code ≠ signedInt .one true (0x50 : Word32).toNat) :=
  ⟨trendTableWF_default, by decide, by decide, by decide⟩

/-- 1 and 360 are directions, 0 and 361 are not. -/
theorem witness_FldWinddirResult :
    2 ^ 16 ≤ (0x10000 : Word32).toNat ∧
      (1 ≤ (1 : Word32).toNat ∧ (1 : Word32).toNat ≤ 360) ∧ (1 ≤ (360 : Word32).toNat ∧ (360 : Word32).toNat ≤ 360) ∧
      ((361 : Word32).toNat < 2 ^ 16 ∧ ¬ (1 ≤ (361 : Word32).toNat ∧ (361 : Word32).toNat ≤ 360)) ∧
      ((0 : Word32).toNat < 2 ^ 16 ∧ ¬ (1 ≤ (0 : Word32).toNat ∧ (0 : Word32).toNat ≤ 360)) := by decide

theorem witness_FldRainResult :
    2 ^ 16 ≤ (0x10000 : Word32).toNat ∧ ((0xFFFF : Word32).toNat < 2 ^ 16 ∧ (0 : Word32) = 0) ∧
      ((0xFFFF : Word32).toNat < 2 ^ 16 ∧ (1 : Word32) ≠ 0) := by decide

/-- Id 5 has no entry; TEST is complete, LOOP is not. -/
theorem witness_EncCmdResult :
    [(0x31 : Byte)].length ≤ idle.cfg.maxDin ∧ idle.cfg.cmdTable.length ≤ (5 : Byte).toNat ∧
      ((idle.cfg.cmdTable[(1 : Byte).toNat]?).map (·.isComplete) = some true ∧ [(0x31 : Byte)] ≠ []) ∧
      (idle.cfg.cmdTable[(2 : Byte).toNat]?).map (·.isComplete) = some false := by decide

/-- The default table and the same with no destructive command. -/
theorem witness_DestructiveMarkChangesNoEncoding :
    SameButMarks defaultCmdTable (defaultCmdTable.map fun e => { e with destructive := false }) ∧
      defaultCmdTable ≠ defaultCmdTable.map fun e => { e with destructive := false } := by
  unfold SameButMarks
  decide +kernel

theorem witness_CmdInfoResult :
    idle.cfg.cmdTable.length ≤ (5 : Byte).toNat ∧
      ∃ e, idle.cfg.cmdTable[(4 : Byte).toNat]? = some e ∧ e.template.length < 2 ^ 32 :=
  ⟨by decide, _, rfl, by decide⟩

/-- "f9". -/
theorem witness_EncHexResult :
    [(0x66 : Byte), 0x39].length ≤ idle.cfg.maxDin ∧ [(0x66 : Byte), 0x39].length % 2 = 0 ∧
      (∀ c ∈ [(0x66 : Byte), 0x39], (hexDigitValue c).isSome) ∧
      ([(0x66 : Byte), 0x39][2 * 0]?.bind hexDigitValue) = some 15 ∧
      ([(0x66 : Byte), 0x39][2 * 0 + 1]?.bind hexDigitValue) = some 9 := by decide

/-- "G", and "0x" with its "x". -/
theorem witness_EncHexErrors :
    [(0x47 : Byte)].length % 2 = 1 ∧ [(0x30 : Byte), 0x78].length % 2 = 0 ∧
      [(0x30 : Byte), 0x78] = [0x30] ++ 0x78 :: [] ∧ (∀ d ∈ [(0x30 : Byte)], (hexDigitValue d).isSome) ∧
      hexDigitValue 0x78 = none ∧ [(0x30 : Byte), 0x78].length ≤ idle.cfg.maxDin ∧
      [(0x30 : Byte), 0x78].length < 2 ^ 32 := by decide

/-- U+007F under every setting; U+00FF under `LATIN1`. -/
theorem witness_EncTextOneByteEach :
    (∀ c ∈ [(0x7F : CodePoint)], c.val ≤ 0x7F) ∧
      (defaultConfig .latin1 99).textHigh = .latin1 ∧ (∀ c ∈ [(0xFF : CodePoint)], c.val ≤ 0xFF) ∧
      [(0xFF : CodePoint)].length ≤ (defaultConfig .latin1 99).maxDin :=
  ⟨by simp, rfl, by simp, by decide⟩

theorem witness_EncTextIsUtf8 : idle.cfg.textHigh = .utf8 ∧ ['A', 'z'].length ≤ idle.cfg.maxDin :=
  ⟨rfl, by decide⟩

/-- U+0041 and then the first surrogate. -/
theorem witness_EncTextReportsFirstUnencodable :
    ([(0x41 : CodePoint)] ++ 0xD800 :: []).length ≤ idle.cfg.maxDin ∧ [(0x41 : CodePoint)].length < 2 ^ 32 ∧
      (∀ d ∈ [(0x41 : CodePoint)], CanEncode idle.cfg.textHigh d) ∧ ¬ CanEncode idle.cfg.textHigh 0xD800 := by
  refine ⟨by decide, by decide, fun d hd => .inl ?_, fun h => ?_⟩
  · obtain rfl := List.mem_singleton.1 hd
    decide
  · rcases h with h | h
    · exact absurd h (by decide)
    · exact (show ¬ (0xD800 ≤ (0xD800 : CodePoint).val ∧ (0xD800 : CodePoint).val ≤ 0xDFFF) from h) (by decide)

/-- The ends of each range and the values just outside. -/
theorem witness_DatePackResult :
    ¬ (2000 ≤ (1999 : Word32).toNat ∧ (1999 : Word32).toNat ≤ 2127) ∧
      ¬ (2000 ≤ (2128 : Word32).toNat ∧ (2128 : Word32).toNat ≤ 2127) ∧
      (2000 ≤ (2127 : Word32).toNat ∧ (2127 : Word32).toNat ≤ 2127) ∧
      ¬ (1 ≤ (13 : Word32).toNat ∧ (13 : Word32).toNat ≤ 12) ∧ (1 ≤ (12 : Word32).toNat ∧ (12 : Word32).toNat ≤ 12) ∧
      ¬ (1 ≤ (32 : Word32).toNat ∧ (32 : Word32).toNat ≤ 31) ∧ (1 ≤ (31 : Word32).toNat ∧ (31 : Word32).toNat ≤ 31) := by
  decide

/-- V-ENC-50, V-ENC-48, V-ENC-49 and V-ENC-44. -/
theorem witness_DateUnpackResult :
    2 ^ 16 ≤ (0x10000 : Word32).toNat ∧
      ((0x01A0 : Word32).toNat < 2 ^ 16 ∧
        ¬ (1 ≤ (0x01A0 : Word32).toNat / 32 % 16 ∧ (0x01A0 : Word32).toNat / 32 % 16 ≤ 12)) ∧
      ((0x0020 : Word32).toNat < 2 ^ 16 ∧ 1 ≤ (0x0020 : Word32).toNat / 32 % 16 ∧
        (0x0020 : Word32).toNat / 32 % 16 ≤ 12 ∧ (0x0020 : Word32).toNat % 32 = 0) ∧
      ((0xFF9F : Word32).toNat < 2 ^ 16 ∧ 1 ≤ (0xFF9F : Word32).toNat / 32 % 16 ∧
        (0xFF9F : Word32).toNat / 32 % 16 ≤ 12 ∧ (0xFF9F : Word32).toNat % 32 ≠ 0) := by decide

theorem witness_TimePackResult :
    23 < (24 : Word32).toNat ∧ ((23 : Word32).toNat ≤ 23 ∧ 59 < (60 : Word32).toNat) ∧
      ((23 : Word32).toNat ≤ 23 ∧ (59 : Word32).toNat ≤ 59) := by decide

/-- V-ENC-64, V-ENC-61, V-ENC-60 and V-ENC-59. -/
theorem witness_TimeUnpackResult :
    2 ^ 16 ≤ (0x10000 : Word32).toNat ∧ ((2400 : Word32).toNat < 2 ^ 16 ∧ 2400 ≤ (2400 : Word32).toNat) ∧
      ((2360 : Word32).toNat < 2400 ∧ 60 ≤ (2360 : Word32).toNat % 100) ∧
      ((2359 : Word32).toNat = 23 * 100 + 59 ∧ 23 ≤ 23 ∧ 59 ≤ 59) := by decide

/-- A packed date and a packed time. -/
theorem witness_PackUnpackRoundTrips :
    (2000 ≤ (2127 : Word32).toNat ∧ (2127 : Word32).toNat ≤ 2127) ∧
      exec (.dateUnpack 0xFF9F) idle =
        .next (answered idle { status := 0x00, r0 := some 2127, r1 := some 12, r2 := some 31 }) ∧
      ((23 : Word32).toNat ≤ 23 ∧ (59 : Word32).toNat ≤ 59) ∧
      exec (.timeUnpack 2359) idle = .next (answered idle { status := 0x00, r0 := some 23, r1 := some 59 }) :=
  ⟨by decide, rfl, by decide, rfl⟩

/-- Id 4 has no token; the token ACK and a longer buffer (V-ENC-66). -/
theorem witness_RspMatchResult :
    [(0x06 : Byte), 0x06].length ≤ idle.cfg.maxDin ∧ idle.cfg.tokenTable.length ≤ (4 : Byte).toNat ∧
      ∃ t, idle.cfg.tokenTable[(0 : Byte).toNat]? = some t ∧ [0x06] = t.bytes ∧ [0x06, 0x06] ≠ t.bytes :=
  ⟨by decide, by decide, ⟨"ACK", [0x06]⟩, rfl, rfl, by decide⟩

theorem witness_RspInfoResult :
    idle.cfg.tokenTable.length ≤ (4 : Byte).toNat ∧
      ∃ t, idle.cfg.tokenTable[(3 : Byte).toNat]? = some t ∧ t.bytes.length < 2 ^ 32 :=
  ⟨by decide, _, rfl, by decide⟩

/-- A first request that fails and one that succeeds. -/
theorem witness_CmdCrcSecondRequest :
    (∃ r, exec (.encCmd 2 []) idle = .next (answered idle r) ∧ r.status ≠ 0x00) ∧
      ∃ r, exec (.encCmd 1 []) idle = .next (answered idle r) ∧ r.status = 0x00 :=
  ⟨⟨_, rfl, by decide⟩, ⟨_, rfl, rfl⟩⟩

/-- LOOP is the name of entry 2; NOSUCH is the name of none. -/
theorem witness_AssemblerResolvesCommandNames :
    CmdTableWF testConfig.cmdTable ∧
      (∃ e, testConfig.cmdTable[(2 : Byte).toNat]? = some e ∧ e.name = "LOOP") ∧
      ∀ e ∈ testConfig.cmdTable, e.name ≠ "NOSUCH" :=
  ⟨cmdTableWF_default, ⟨_, rfl, rfl⟩, by decide +kernel⟩

end Sys2Proof.Tests
end

section
/-! PROOFS of the family 10_state.md: what every instruction and every step answer, the reset state, and the table that
CRC.TABLE reads. -/

namespace Sys2Proof.Proofs

open Sys2Proof.Machine Sys2Proof.Safety Sys2Proof.Laws

/-! ## Legal responses: every way a meaning builds one (60_exceptions.md R200, R201) -/

/-- An error is legal when its status and the fields it sets are a row of R200. -/
theorem legalResponse_raise {cfg : Config} {status : Byte} {r0 r1 r2 : Option Word32}
    (h : (status, r0.isSome, r1.isSome, r2.isSome) ∈ errorInfo) : LegalResponse cfg (raise status r0 r1 r2) :=
  .inr ⟨h, rfl, rfl, rfl⟩

@[simp] theorem legalResponse_raiseParamsUnexpected (cfg : Config) (id : Byte) :
    LegalResponse cfg (raiseParamsUnexpected id) := legalResponse_raise (by simp [errorInfo])

@[simp] theorem legalResponse_raiseParamsMissing (cfg : Config) (id : Byte) :
    LegalResponse cfg (raiseParamsMissing id) := legalResponse_raise (by simp [errorInfo])

@[simp] theorem legalResponse_raiseHexOdd (cfg : Config) (len : Nat) :
    LegalResponse cfg (raiseHexOdd len) := legalResponse_raise (by simp [errorInfo])

@[simp] theorem legalResponse_raiseHexChar (cfg : Config) (index : Nat) (c : Byte) :
    LegalResponse cfg (raiseHexChar index c) := legalResponse_raise (by simp [errorInfo])

@[simp] theorem legalResponse_raiseText (cfg : Config) (index : Nat) (c : CodePoint) :
    LegalResponse cfg (raiseText index c) := legalResponse_raise (by simp [errorInfo])

@[simp] theorem legalResponse_raiseBadLength (cfg : Config) (len : Nat) :
    LegalResponse cfg (raiseBadLength len) := legalResponse_raise (by simp [errorInfo])

@[simp] theorem legalResponse_raiseFixed (cfg : Config) (off : Nat) (expected actual : Word16) :
    LegalResponse cfg (raiseFixed off expected actual) := legalResponse_raise (by simp [errorInfo])

@[simp] theorem legalResponse_raiseDomain (cfg : Config) (field : Word32) :
    LegalResponse cfg (raiseDomain field) := legalResponse_raise (by simp [errorInfo])

@[simp] theorem legalResponse_raiseBadId (cfg : Config) (id : Byte) :
    LegalResponse cfg (raiseBadId id) := legalResponse_raise (by simp [errorInfo])

@[simp] theorem legalResponse_raiseOperand (cfg : Config) (operand : Word32) :
    LegalResponse cfg (raiseOperand operand) := legalResponse_raise (by simp [errorInfo])

@[simp] theorem legalResponse_raiseIllegal (cfg : Config) (cause : Illegal) :
    LegalResponse cfg (raiseIllegal cause) := legalResponse_raise (by simp [errorInfo])

@[simp] theorem legalResponse_okay (cfg : Config) (r0 r1 r2 : Option Word32) (rq : Option Rat)
    (dout : Option Bytes) : LegalResponse cfg (okay r0 r1 r2 rq dout) := .inl ⟨rfl, by simp [okay]⟩

/-- FRM.DECODE's success: the record it carries is legal (42_frame_parser.md R131). -/
@[simp] theorem legalResponse_okay_decodeRecord (cfg : Config) (num den : Word32) (din : Bytes) :
    LegalResponse cfg (okay (record := some (decodeRecord cfg num den din))) :=
  .inl ⟨rfl, by rintro _ ⟨⟩; exact legalRecord_decodeRecord cfg num den din⟩

theorem legalResponse_ite {cfg : Config} {p : Prop} [Decidable p] {a b : Response}
    (ha : LegalResponse cfg a) (hb : LegalResponse cfg b) : LegalResponse cfg (if p then a else b) := by
  split <;> assumption

/-- The bound of 20_memory.md R41 adds only a legal error. -/
theorem legalResponse_bounded {α : Type} {cfg : Config} {body : Response} (buf : List α)
    (h : LegalResponse cfg body) : LegalResponse cfg (bounded cfg buf body) := by
  rcases bounded_cases cfg buf body with e | e <;> simp [e, h]

/-- Settles O4: what an instruction delivers is, in every branch of its meaning, a success or a row of R200. -/
theorem everyInstructionAnswers : Obligations.EveryInstructionAnswers := by
  intro i s
  cases i with
  | crcStep acc byte => exact ⟨_, rfl, by split_ifs <;> simp⟩
  | crcCompute seed buf => exact ⟨_, rfl, legalResponse_bounded buf (by split_ifs <;> simp)⟩
  | crcVerify buf => exact ⟨_, rfl, legalResponse_bounded buf (by simp)⟩
  | crcAppend buf => exact ⟨_, rfl, legalResponse_bounded buf (by simp)⟩
  | crcTable index => exact ⟨_, rfl, by split_ifs <;> simp⟩
  | frmDecode num den buf =>
    refine ⟨_, rfl, legalResponse_ite (by simp) (legalResponse_bounded buf (legalResponse_ite (by simp) ?_))⟩
    split <;> simp
  | fldExtract fmt offset buf => exact ⟨_, rfl, legalResponse_bounded buf (by split_ifs <;> simp)⟩
  | fldScale kind raw => exact ⟨_, rfl, by simp⟩
  | fldTrend raw =>
    refine ⟨_, rfl, legalResponse_ite (by simp) ?_⟩
    split <;> simp
  | fldWinddir raw =>
    refine ⟨_, rfl, legalResponse_ite (by simp) ?_⟩
    split <;> simp
  | fldRain clicks num den => exact ⟨_, rfl, by split_ifs <;> simp⟩
  | encCmd id params =>
    refine ⟨_, rfl, legalResponse_bounded params ?_⟩
    split
    · simp
    · split_ifs <;> simp
  | cmdInfo id =>
    refine ⟨_, rfl, ?_⟩
    split <;> simp
  | encHex buf =>
    refine ⟨_, rfl, legalResponse_bounded buf (legalResponse_ite (by simp) ?_)⟩
    split <;> simp
  | encText text =>
    refine ⟨_, rfl, legalResponse_bounded text ?_⟩
    split <;> simp
  | datePack year month day => exact ⟨_, rfl, by split_ifs <;> simp⟩
  | dateUnpack packed => exact ⟨_, rfl, by dsimp only; split_ifs <;> simp⟩
  | timePack hour minute => exact ⟨_, rfl, by split_ifs <;> simp⟩
  | timeUnpack packed => exact ⟨_, rfl, by split_ifs <;> simp⟩
  | rspMatch id buf =>
    refine ⟨_, rfl, legalResponse_bounded buf ?_⟩
    split <;> simp
  | rspInfo id =>
    refine ⟨_, rfl, ?_⟩
    split <;> simp

/-! ## The response depends on the parameters and the request alone (20_memory.md R52) -/

/-- A meaning reads nothing of the state but its parameters. -/
theorem exec_response_of_cfg_eq {s t : State} (i : Instr) (hc : s.cfg = t.cfg) :
    ∃ p, exec i s = .next (answered s p) ∧ exec i t = .next (answered t p) := by
  obtain ⟨cfg, _, _, _⟩ := s
  obtain ⟨_, _, _, _⟩ := t
  obtain rfl : cfg = _ := hc
  cases i <;> exact ⟨_, rfl, rfl⟩

/-- A step that answers the request in flight reads nothing of the state but its parameters and that request. -/
theorem step_response_of_cfg_eq {s t : State} {r : Request} (hc : s.cfg = t.cfg) (hs : s.inFlight = some r)
    (ht : t.inFlight = some r) (hsr : s.host.head? ≠ some .reset) (htr : t.host.head? ≠ some .reset) :
    ∃ p, step s = .next (answered s p) ∧ step t = .next (answered t p) := by
  have hs' : ¬ resetNow s = true := mt (resetNow_iff s).1 hsr
  have ht' : ¬ resetNow t = true := mt (resetNow_iff t).1 htr
  simp only [step, hs, ht, if_neg hs', if_neg ht']
  cases decode r with
  | error cause => exact ⟨_, rfl, rfl⟩
  | ok i => exact exec_response_of_cfg_eq i hc

/-- The step of a request in flight delivers the response the request gets alone, and nothing else changes. -/
theorem step_answers_responseAlone {s : State} {r : Request} (hs : s.inFlight = some r)
    (hsr : s.host.head? ≠ some .reset) :
    ∃ p, responseAlone s.cfg r = some p ∧ step s = .next (answered s p) := by
  obtain ⟨p, hp, hsp⟩ := step_response_of_cfg_eq
    (s := { cfg := s.cfg, inFlight := some r, host := [], responses := [] }) (t := s) rfl rfl hs (by simp) hsr
  exact ⟨p, by simp [responseAlone, hp], hsp⟩

/-- Settles O8: both steps deliver the response the request gets alone. -/
theorem responseIndependentOfHistory : Obligations.ResponseIndependentOfHistory := by
  intro s t r hc hs ht hsr htr
  obtain ⟨p, hp, hsp⟩ := step_answers_responseAlone hs hsr
  obtain ⟨q, hq, htq⟩ := step_answers_responseAlone ht htr
  obtain rfl : q = p := Option.some.inj (hq.symm.trans (hc ▸ hp))
  exact ⟨q, hp, hsp, htq⟩

/-! ## The table CRC.TABLE reads -/

/-- CRC.TABLE at a byte answers with the entry at that byte (41_checksum.md R104). -/
theorem exec_crcTable_byte (s : State) (i : Byte) :
    exec (.crcTable (i.setWidth 32)) s =
      .next (answered s { status := 0x00, r0 := some ((tableAt s.cfg i).setWidth 32) }) := by
  have hlt : ¬ 256 ≤ (i.setWidth 32 : Word32).toNat := by
    have := i.isLt
    simp only [BitVec.toNat_setWidth]
    omega
  have hback : (i.setWidth 32 : Word32).setWidth 8 = i := by simp
  simp only [exec, execCrcTable, if_neg hlt, hback]
  rfl

/-- Settles O27: the table is that of the generator of 10_state.md R22, which is linear (`tableAt_xor`). -/
theorem crcTableIsLinear : Obligations.CrcTableIsLinear := by
  intro s h
  refine ⟨tableAt s.cfg, exec_crcTable_byte s, ?_, ?_, ?_, tableAt_xor h⟩ <;> rw [tableAt_eq h] <;> decide

/-! ## The reset state, and what every step keeps -/

/-- Settles O1: the default tables are well formed whatever the two OPEN parameters are. -/
theorem resetMeetsInvariant : Obligations.ResetMeetsInvariant :=
  ⟨{ cfg := wf_defaultConfig _ (Nat.le_add_left 99 _), responses := by simp [State.reset] }, rfl⟩

/-- Settles O5: each of the three ways a step ends has a next state. -/
theorem everyStepGoesOn : Obligations.EveryStepGoesOn := by
  intro s
  rcases step_next s with ⟨_, h⟩ | ⟨_, _, _, h⟩ | ⟨_, _, _, _, h⟩ <;> exact ⟨_, h⟩

/-- Settles O6: neither the host's turn, nor a reset, nor an answer writes the parameters. -/
theorem noStepWritesTables : Obligations.NoStepWritesTables := by
  intro s t ht
  rcases step_next s with ⟨_, h⟩ | ⟨_, _, _, h⟩ | ⟨_, _, _, _, h⟩ <;>
    · cases h.symm.trans ht
      simp

end Sys2Proof.Proofs
end

section
/-! PROOFS of the family 20_memory.md: the host's turn and the one response of a step (R56), the buffer bound (R41), the
first bytes of a frame (R51) and reads of mixed widths (R45). -/

namespace Sys2Proof.Proofs

open Sys2Proof.Machine Sys2Proof.Safety Sys2Proof.Laws

/-! ## The frames FRM.DECODE accepts (20_memory.md R51, 42_frame_parser.md R130) -/

/-- FRM.DECODE answers with a record only when every check passed: 99 bytes, a nonzero denominator, all fixed fields as
in the layout. The record is then the decoded one. -/
theorem exec_frmDecode_record {s : State} {num den : Word32} {din : Bytes} {rec : Loop2Record}
    (h : exec (.frmDecode num den din) s = .next (answered s { status := 0x00, record := some rec })) :
    din.length = 99 ∧ den ≠ 0 ∧ (∀ f ∈ s.cfg.layout.fixed, fixedDiffers din f = false) ∧
      rec = decodeRecord s.cfg num den din := by
  have hr := answered_inj (Host.Outcome.next.inj h)
  split at hr
  · simp [raiseBadLength, raise] at hr
  next hlen =>
    rcases bounded_cases s.cfg din _ with hb | hb <;> rw [hb] at hr
    · split at hr
      · simp [raiseOperand, raise] at hr
      next hden =>
        split at hr
        · simp [raiseFixed, raise] at hr
        next hfix =>
          exact ⟨not_not.1 hlen, hden, (firstFixedMismatch_eq_none _ _).1 hfix, by simpa [okay] using hr.symm⟩
    · simp [raiseOperand, raise] at hr

/-- Where a one-byte fixed field matches, the frame holds its constant. -/
theorem getElem?_of_fixed_one {din : Bytes} {f : FixedField} (hw : f.width = .one) (hlt : f.off < din.length)
    (h : fixedDiffers din f = false) : din[f.off]? = some (f.value.setWidth 8) := by
  have hf : (din[f.off]).setWidth 16 = f.value := by
    simpa [fixedDiffers, hw, readField, byteAt_of_lt hlt] using h
  simp [← hf, hlt]

/-- The value of a present field is the number its bytes stand for (R130, R138). -/
theorem eq_signedInt_of_presentValue {v : ValueField} {din : Bytes} {x : Int} (h : v.off + v.width.bytes ≤ din.length)
    (hx : presentValue v din = some x) : x = signedInt v.width v.signed (fieldNat din v.off v.width false h) := by
  rw [← readField_toNat, ← fieldValue_eq _ _ _ (readField_lt ..)]
  dsimp only [presentValue] at hx
  split at hx
  · cases hx
  · exact (Option.some.inj hx).symm

/-- A trend in the record is the place of the frame's byte 3, read as signed, in the trend table (R51, R142). -/
theorem barTrend_decodeRecord {cfg : Config} (hwf : cfg.WF) {num den : Word32} {din : Bytes} {i : Nat}
    (hlt : 3 < din.length) (hi : (decodeRecord cfg num den din).barTrend = some i) :
    (cfg.trendTable[i]?.map (·.code)) = some (signedInt .one true din[3].toNat) := by
  obtain ⟨⟨_, _, _, _, sentinel⟩, hv, rfl, rfl, rfl, rfl⟩ := hwf.layout.trendByte
  have hst : _ = _ := stored_decodeRecord hwf.layout num den din hv
  obtain ⟨x, hx, ht⟩ := Option.bind_eq_some_iff.1 (hst.symm.trans hi)
  obtain rfl := eq_signedInt_of_presentValue (v := ⟨.trend, 3, .one, true, sentinel⟩) hlt hx
  exact (trendOf_eq_some hwf.trendTable.unique _ i).1 ht

/-- Settles O31: the tag and the record type are fixed fields, so every accepted frame holds their constants; the trend
byte is the one value field of the trend. -/
theorem acceptedFramesShareTagAndType : Obligations.AcceptedFramesShareTagAndType := by
  intro s num den a rec hwf ha
  obtain ⟨hlen, -, hfix, rfl⟩ := exec_frmDecode_record ha
  refine ⟨?_, fun i hi => ?_, fun num' den' b rec' hb i hi => ?_⟩
  · exact getElem?_of_fixed_one rfl (by simp [hlen]) (hfix _ hwf.layout.recordType)
  · have hlt : 3 < a.length := by omega
    exact ⟨a[3], List.getElem?_eq_getElem hlt, barTrend_decodeRecord hwf hlt hi⟩
  · obtain ⟨hlen', -, hfix', -⟩ := exec_frmDecode_record hb
    obtain ⟨f, hf, rfl, hw⟩ := hwf.layout.tag i (by simp; omega)
    rw [getElem?_of_fixed_one hw (by omega) (hfix f hf), getElem?_of_fixed_one hw (by omega) (hfix' f hf)]

/-! ## One response per step, and the host's turn (20_memory.md R56) -/

/-- Settles O7: the host's turn and a reset deliver nothing, an answer delivers one response. -/
theorem atMostOneResponsePerStep : Obligations.AtMostOneResponsePerStep := by
  intro s t ht
  rcases step_next s with ⟨_, h⟩ | ⟨_, _, _, h⟩ | ⟨r, p, hf, _, h⟩ <;> cases h.symm.trans ht
  · exact .inl (hostTurn_responses s)
  · exact .inl (applyReset_responses s)
  · exact .inr ⟨⟨r, hf⟩, answered_inFlight s p, p, answered_responses s p⟩

theorem step_of_idle {s : State} (h : s.inFlight = none) : step s = .next (hostTurn s) := by
  simp only [step, h]

theorem hostTurn_of_nil {s : State} (h : s.host = []) : hostTurn s = s := by
  simp only [hostTurn, h]

theorem hostTurn_of_issue {s : State} {r : Request} {rest : List HostEvent} (h : s.host = .issue r :: rest) :
    hostTurn s = { s with inFlight := some r, host := rest } := by
  simp only [hostTurn, h]

theorem hostTurn_of_wait {s : State} {rest : List HostEvent} (h : s.host = .wait :: rest) :
    hostTurn s = { s with host := rest } := by
  simp only [hostTurn, h]

/-- Settles O11: the step of an idle block is the host's turn, one clause for each event. -/
theorem hostTurnOfIdleBlock : Obligations.HostTurnOfIdleBlock := by
  intro s hs
  rw [step_of_idle hs]
  exact ⟨fun h => by rw [hostTurn_of_nil h], fun r rest h => by rw [hostTurn_of_issue h],
    fun rest h => by rw [hostTurn_of_wait h]⟩

/-! ## The buffer bound (20_memory.md R41) -/

/-- An operation the bound covers does nothing before it: its answer is a response under the bound on its buffer. -/
theorem exec_eq_bounded {i : Instr} {n : Nat} (h : boundedLength i = some n) (s : State) :
    ∃ (α : Type) (buf : List α) (body : Response),
      buf.length = n ∧ exec i s = .next (answered s (bounded s.cfg buf body)) := by
  cases i <;> cases h
  all_goals exact ⟨_, _, _, rfl, rfl⟩

/-- FRM.DECODE reports every length that is not 99, before the bound (R41, 60_exceptions.md R203). -/
theorem exec_frmDecode_of_length_ne {din : Bytes} (h : din.length ≠ 99) (num den : Word32) (s : State) :
    exec (.frmDecode num den din) s = .next (answered s (raiseBadLength din.length)) := by
  simp only [exec, execFrmDecode, if_pos h]
  rfl

/-- Settles O14: the bound refuses a long buffer whatever the operation's own checks would say. -/
theorem longBufferRefusedFirst : Obligations.LongBufferRefusedFirst := by
  intro i s
  constructor
  · intro n hn hlt
    obtain ⟨α, buf, body, rfl, hexec⟩ := exec_eq_bounded hn s
    rw [hexec, bounded_of_lt hlt]
    rfl
  · rintro num den din rfl hne
    exact exec_frmDecode_of_length_ne hne num den s

/-! ## Reads of mixed widths (20_memory.md R45, 42_frame_parser.md R133) -/

/-- FLD.EXTRACT of a field inside a buffer within the bound answers with the field's value and its raw bits (R133). -/
theorem exec_fldExtract_of_le {s : State} {fmt : FieldFormat} {offset : Word32} {din : Bytes}
    (hd : din.length ≤ s.cfg.maxDin) (h : offset.toNat + (formatWidth fmt).bytes ≤ din.length) :
    exec (.fldExtract fmt offset din) s = .next (answered s
      { status := 0x00
        r0 := some (BitVec.ofInt 32
          (signedInt (formatWidth fmt) fmt.signed (fieldNat din offset.toNat (formatWidth fmt) fmt.bigEndian h)))
        r1 := some (BitVec.ofNat 32 (fieldNat din offset.toNat (formatWidth fmt) fmt.bigEndian h)) }) := by
  simp only [exec, execFldExtract, bounded_of_le hd, if_neg (Nat.not_lt.2 h), ← readFormat_toNat,
    ← fieldValue_eq _ _ _ (readFormat_lt ..),
    BitVec.ofNat_toNat]
  rfl

/-- An unsigned field has one number for its value and its raw bits (00_scope.md R9). -/
theorem exec_fldExtract_unsigned {s : State} (wide big : Bool) {offset : Word32} {din : Bytes}
    (hd : din.length ≤ s.cfg.maxDin)
    (h : offset.toNat + (formatWidth ⟨wide, false, big⟩).bytes ≤ din.length) {x : Word32}
    (hx : BitVec.ofNat 32 (fieldNat din offset.toNat (formatWidth ⟨wide, false, big⟩) big h) = x) :
    exec (.fldExtract ⟨wide, false, big⟩ offset din) s
      = .next (answered s { status := 0x00, r0 := some x, r1 := some x }) := by
  rw [exec_fldExtract_of_le hd h, ← hx]
  simp [signedInt]

theorem toNat_ofNat_byte_lt (b : Byte) : (BitVec.ofNat 32 b.toNat).toNat < 256 :=
  (Nat.mod_le _ _).trans_lt b.isLt

/-- Settles O35: the two bytes at the offset and the next are the 8-bit reads, and the numbers of the 16-bit reads are
made of them. -/
theorem fldExtractMixedWidths : Obligations.FldExtractMixedWidths := by
  intro s o o' din hd ho' ho
  have h0 : o.toNat < din.length := by omega
  have h1 : o.toNat + 1 < din.length := by omega
  refine ⟨BitVec.ofNat 32 din[o.toNat].toNat, BitVec.ofNat 32 din[o.toNat + 1].toNat, toNat_ofNat_byte_lt _,
    toNat_ofNat_byte_lt _,
    exec_fldExtract_unsigned false false hd h0 rfl, exec_fldExtract_unsigned false false hd (ho'.trans_lt h1) ?_,
    exec_fldExtract_unsigned true false hd ho ?_, exec_fldExtract_unsigned true true hd ho ?_⟩
  · simp [fieldNat, formatWidth, ho']
  all_goals simp [fieldNat, formatWidth, BitVec.ofNat_add, BitVec.ofNat_mul]

end Sys2Proof.Proofs
end

section
/-! PROOFS of the family 30_encoding.md: the round trip between instructions and requests (R61 to R68), legal requests
and the first cause of an illegal one (R62, R70), and the assembler's names and second request (R75). -/

namespace Sys2Proof.Proofs

open Sys2Proof.Machine Sys2Proof.Safety Sys2Proof.Laws

/-! ## Decoding an encoded instruction -/

/-- A request whose command word is that of a row of the map, with a legal `SEL` and every unused field neutral, decodes
to the instruction the row builds. -/
theorem decode_of_commandWord {r : Request} {op sel : Byte} {row : OpRow} {i : Instr}
    (hcmd : r.cmd = commandWord op sel) (hrow : opRow? op = some row) (hsel : row.sel.legal sel = true)
    (hrest : row.restNeutral r = true) (hbuild : r.sel = sel → row.build r = i) : decode r = .ok i := by
  have hop : r.op = op := by rw [Request.op, hcmd, op_commandWord]
  have hsel' : r.sel = sel := by rw [Request.sel, hcmd, sel_commandWord]
  have hrsv : r.rsv = 0 := by rw [Request.rsv, hcmd, rsv_commandWord]
  exact (decode_ok_iff r i).2 ⟨row, hop ▸ hrow, hrsv, hsel' ▸ hsel, hrest, hbuild hsel'⟩

@[simp] theorem legal_toSel_scale (k : ScaleKind) : SelUse.legal .scale k.toSel = true := by
  cases k <;> rfl

/-- Settles O15: only the operations that take `SEL` as an operand need more than their row of the map. -/
theorem decodeOfEncode : Obligations.DecodeOfEncode := by
  intro i hwf
  cases i with
  | fldExtract fmt offset buf =>
    exact decode_of_commandWord rfl rfl (legal_toSel_format hwf) rfl fun h =>
      congrArg (Instr.fldExtract · offset buf) ((congrArg FieldFormat.ofSel h).trans (ofSel_toSel_format fmt))
  | fldScale kind raw =>
    exact decode_of_commandWord rfl rfl (legal_toSel_scale kind) rfl fun h =>
      congrArg (Instr.fldScale · raw) ((congrArg ScaleKind.ofSel h).trans (ofSel_toSel_scale kind))
  | encCmd id params => exact decode_of_commandWord rfl rfl rfl rfl (congrArg (Instr.encCmd · params))
  | cmdInfo id => exact decode_of_commandWord rfl rfl rfl rfl (congrArg Instr.cmdInfo)
  | rspMatch id buf => exact decode_of_commandWord rfl rfl rfl rfl (congrArg (Instr.rspMatch · buf))
  | rspInfo id => exact decode_of_commandWord rfl rfl rfl rfl (congrArg Instr.rspInfo)
  | _ => exact decode_of_commandWord rfl rfl rfl rfl fun _ => rfl

/-! ## Encoding a decoded instruction -/

/-- The `SEL` the encoder writes for the instruction that a row with this use of `SEL` builds from `sel`. -/
def canonicalSel : SelUse → Byte → Byte
  | .zero, _ => 0
  | .format, sel => (FieldFormat.ofSel sel).toSel
  | .scale, sel => (ScaleKind.ofSel sel).toSel
  | .tableId, sel => sel

/-- The request the encoder writes for the instruction that a row builds from `r`: the fields the row uses are those of
`r`, every other one is neutral. -/
def canonicalRequest (row : OpRow) (r : Request) : Request where
  cmd := commandWord row.op (canonicalSel row.sel r.sel)
  s0 := if row.s0 then r.s0 else 0
  s1 := if row.s1 then r.s1 else 0
  s2 := if row.s2 then r.s2 else 0
  din := if row.din then r.din else []
  dtext := if row.dtext then r.dtext else []

/-- The encoder and the opcode map agree, row by row. -/
theorem encode_build {row : OpRow} (h : row ∈ opcodeMap) (r : Request) :
    encode (row.build r) = canonicalRequest row r := by
  fin_cases h <;> rfl

/-- What well-formedness asks of an instruction a row builds: FLD.EXTRACT's row alone asks anything (R66). -/
theorem wf_build_iff {row : OpRow} (h : row ∈ opcodeMap) (r : Request) :
    (row.build r).WF ↔ (row.sel = .format → (FieldFormat.ofSel r.sel).WF) := by
  fin_cases h <;> simp [Instr.WF]

theorem canonicalSel_of_legal {use : SelUse} {sel : Byte} (h : use.legal sel = true) : canonicalSel use sel = sel := by
  cases use with
  | zero => exact (beq_iff_eq.1 h).symm
  | format => exact (format_of_legal h).2
  | scale => exact scale_of_legal h
  | tableId => rfl

/-- A legal request of a row is the one the encoder writes. -/
theorem canonicalRequest_of_legal {row : OpRow} {r : Request} (hop : row.op = r.op) (hrsv : r.rsv = 0)
    (hsel : row.sel.legal r.sel = true) (hrest : row.restNeutral r = true) : canonicalRequest row r = r := by
  have hcmd : commandWord row.op r.sel = r.cmd := hop ▸ (eq_commandWord hrsv).symm
  obtain ⟨cmd, s0, s1, s2, din, dtext⟩ := r
  simp only [OpRow.restNeutral, Bool.and_eq_true, Bool.or_eq_true, beq_iff_eq, List.isEmpty_iff] at hrest
  obtain ⟨⟨⟨⟨h0, h1⟩, h2⟩, hd⟩, ht⟩ := hrest
  simp only [canonicalRequest, canonicalSel_of_legal hsel, hcmd, Request.mk.injEq, true_and, ite_eq_left_iff]
  exact ⟨fun h => (h0.resolve_left h).symm, fun h => (h1.resolve_left h).symm, fun h => (h2.resolve_left h).symm,
    fun h => (hd.resolve_left h).symm, fun h => (ht.resolve_left h).symm⟩

/-- Settles O16: the row that decoded the request builds an instruction whose canonical request is that request. -/
theorem encodeOfDecode : Obligations.EncodeOfDecode := by
  intro r i h
  obtain ⟨row, hrow, hrsv, hsel, hrest, rfl⟩ := (decode_ok_iff r i).1 h
  obtain ⟨hmem, hop⟩ := opRow_mem hrow
  constructor
  · exact (wf_build_iff hmem r).2 fun hf => (format_of_legal (hf ▸ hsel)).1
  · rw [encode_build hmem, canonicalRequest_of_legal hop hrsv hsel hrest]

/-! ## Legal requests: the opcode map against the tables of R64 to R68 -/

/-- The `OP` values of R64 are those with a row in the map. -/
theorem mem_opCodes_iff (op : Byte) : op ∈ opCodes ↔ ∃ row, opRow? op = some row := by
  have hcodes : opCodes = opcodeMap.map (·.op) := rfl
  rw [← Option.isSome_iff_exists, opRow?, List.find?_isSome, hcodes]
  simp

/-- The column `SEL` of R64: which operations take it as a format, a scale or a table id. -/
theorem selUse_of_mem_opcodeMap : ∀ row ∈ opcodeMap,
    (row.op = 0x11 ↔ row.sel = .format) ∧ (row.op = 0x12 ↔ row.sel = .scale) ∧
      (row.op ∈ [0x20, 0x21, 0x28, 0x29] ↔ row.sel = .tableId) := by
  decide

/-- The columns of R65: which operations use which request field. -/
theorem usedFields_of_mem_opcodeMap : ∀ row ∈ opcodeMap,
    (row.op ∈ [0x01, 0x02, 0x05, 0x10, 0x11, 0x12, 0x13, 0x14, 0x15, 0x24, 0x25, 0x26, 0x27] ↔ row.s0 = true) ∧
    (row.op ∈ [0x01, 0x10, 0x15, 0x24, 0x26] ↔ row.s1 = true) ∧
    (row.op ∈ [0x15, 0x24] ↔ row.s2 = true) ∧
    (row.op ∈ [0x02, 0x03, 0x04, 0x10, 0x11, 0x20, 0x22, 0x28] ↔ row.din = true) ∧
    (row.op ∈ [0x23] ↔ row.dtext = true) := by
  decide

theorem selLegal_iff {row : OpRow} (h : row ∈ opcodeMap) (sel : Byte) :
    selLegal row.op sel ↔ row.sel.legal sel = true := by
  obtain ⟨hformat, hscale, hid⟩ := selUse_of_mem_opcodeMap row h
  simp only [selLegal, hformat, hscale, hid]
  cases row.sel <;> simp [SelUse.legal]

theorem unusedNeutral_iff {row : OpRow} (h : row ∈ opcodeMap) (r : Request) :
    unusedNeutral row.op r ↔ row.restNeutral r = true := by
  obtain ⟨h0, h1, h2, hd, ht⟩ := usedFields_of_mem_opcodeMap row h
  simp only [unusedNeutral, h0, h1, h2, hd, ht, OpRow.restNeutral, Bool.and_eq_true, Bool.or_eq_true, beq_iff_eq,
    List.isEmpty_iff, ← or_iff_not_imp_left, and_assoc]

/-- Settles O17: the four checks of R62 are the row of the map and its columns. -/
theorem legalRequestsDecode : Obligations.LegalRequestsDecode := by
  intro r
  change _ ↔ r.op ∈ opCodes ∧ r.rsv = 0 ∧ selLegal r.op r.sel ∧ unusedNeutral r.op r
  simp only [decode_ok_iff, mem_opCodes_iff]
  constructor
  · rintro ⟨_, row, hrow, hrsv, hsel, hrest, -⟩
    obtain ⟨hmem, hop⟩ := opRow_mem hrow
    exact ⟨⟨row, hrow⟩, hrsv, hop ▸ (selLegal_iff hmem _).2 hsel, hop ▸ (unusedNeutral_iff hmem r).2 hrest⟩
  · rintro ⟨⟨row, hrow⟩, hrsv, hsel, hrest⟩
    obtain ⟨hmem, hop⟩ := opRow_mem hrow
    rw [← hop] at hsel hrest
    exact ⟨_, row, hrow, hrsv, (selLegal_iff hmem _).1 hsel, (unusedNeutral_iff hmem r).1 hrest, rfl⟩

/-! ## The step on a request in flight -/

/-- Settles O3: with a request in flight and no reset, a step that decodes an instruction is its meaning. -/
theorem stepRunsDecodedInstruction : Obligations.StepRunsDecodedInstruction := by
  intro s r i hs hh hd
  simp only [step, hs, if_neg (mt (resetNow_iff s).1 hh), hd]

theorem step_of_decode_error {s : State} {r : Request} {c : Illegal} (hs : s.inFlight = some r)
    (hh : s.host.head? ≠ some .reset) (hd : decode r = .error c) :
    step s = .next (answered s { status := 0xFF, r0 := some (illegalNumber c) }) := by
  simp only [step, hs, if_neg (mt (resetNow_iff s).1 hh), hd]
  rfl

/-- The checks of R62 on a request whose `OP` has a row, in their order. -/
theorem decode_of_opRow {r : Request} {row : OpRow} (h : opRow? r.op = some row) :
    decode r = if r.rsv ≠ 0 then .error .rsv else if row.sel.legal r.sel = false then .error .sel
      else if row.restNeutral r = false then .error .unused else .ok (row.build r) := by
  simp only [decode, h]

/-- Settles O12: each clause is the check of R62 that fails first. -/
theorem illegalRequestFirstCause : Obligations.IllegalRequestFirstCause := by
  intro s r hs hh
  change (r.op ∉ opCodes → _) ∧ (r.op ∈ opCodes → r.rsv ≠ 0 → _) ∧
    (r.op ∈ opCodes → r.rsv = 0 → ¬ selLegal r.op r.sel → _) ∧
    (r.op ∈ opCodes → r.rsv = 0 → selLegal r.op r.sel → ¬ unusedNeutral r.op r → _)
  by_cases hcode : r.op ∈ opCodes
  · obtain ⟨row, hrow⟩ := (mem_opCodes_iff _).1 hcode
    obtain ⟨hmem, hop⟩ := opRow_mem hrow
    have hd := decode_of_opRow hrow
    rw [← hop, selLegal_iff hmem, unusedNeutral_iff hmem]
    refine ⟨fun h => absurd (hop ▸ hcode) h, fun _ hrsv => ?_, fun _ hrsv hsel => ?_, fun _ hrsv hsel hrest => ?_⟩
    · exact step_of_decode_error hs hh (c := .rsv) (by rw [hd, if_pos hrsv])
    · exact step_of_decode_error hs hh (c := .sel) (by simp [hd, hrsv, hsel])
    · exact step_of_decode_error hs hh (c := .unused) (by simp [hd, hrsv, hsel, hrest])
  · have hnone : opRow? r.op = none := by
      simpa [mem_opCodes_iff, ← Option.eq_none_iff_forall_ne_some] using hcode
    refine ⟨fun _ => ?_, fun h => absurd h hcode, fun h => absurd h hcode, fun h => absurd h hcode⟩
    exact step_of_decode_error hs hh (c := .op) (by simp only [decode, hnone])

/-- Settles O18: the decoder run on the six words. -/
theorem specWordsDecode : Obligations.SpecWordsDecode :=
  ⟨by decide, by decide, by decide, by decide, by decide, by decide⟩

/-! ## The assembler (30_encoding.md R75) -/

/-- ENC.CMD answers with an error or with a success that carries the encoded command (43_command_encoder.md R163). -/
theorem exec_encCmd_cases {s : State} {id : Byte} {params : Bytes} {r : Response}
    (h : exec (.encCmd id params) s = .next (answered s r)) :
    r.status ≠ 0x00 ∨ ∃ d, r = okay (dout := some d) := by
  obtain rfl := answered_inj (Host.Outcome.next.inj h)
  rcases bounded_cases s.cfg params _ with hb | hb <;> rw [hb]
  · split
    · exact .inl (by simp [raiseBadId, raise])
    · split_ifs
      · exact .inl (by simp [raiseParamsUnexpected, raise])
      · exact .inl (by simp [raiseParamsMissing, raise])
      · exact .inr ⟨_, rfl⟩
  · exact .inl (by simp [raiseOperand, raise])

/-- Settles O55: ENC.CMD's success, and no error of it, has a `dout` for CRC.APPEND. -/
theorem cmdCrcSecondRequest : Obligations.CmdCrcSecondRequest := by
  intro s id params r h
  rcases exec_encCmd_cases h with hstatus | ⟨d, rfl⟩
  · exact ⟨fun _ => if_neg hstatus, fun h0 => absurd h0 hstatus⟩
  · exact ⟨fun hne => absurd rfl hne, fun _ => ⟨d, rfl, rfl⟩⟩

theorem asmInstr_encCmd (cfg : Config) (ops : List Operand) :
    asmInstr cfg "enc.cmd" ops = (withIdBuffer (cfg.cmdTable.map (·.name)) .encCmd ops).map .one := by
  simp [asmInstr, asmChecksum, asmFrame, asmEncoder]

theorem asmInstr_cmdInfo (cfg : Config) (ops : List Operand) :
    asmInstr cfg "cmd.info" ops = (withId (cfg.cmdTable.map (·.name)) .cmdInfo ops).map .one := by
  simp [asmInstr, asmChecksum, asmFrame, asmEncoder]

theorem asmInstr_encCmdcrc (cfg : Config) (ops : List Operand) :
    asmInstr cfg "enc.cmdcrc" ops = (withIdBuffer (cfg.cmdTable.map (·.name)) .encCmd ops).map .cmdCrc := by
  simp [asmInstr]

/-- A name at a place of a table without repeated names resolves to that place. -/
theorem idOfName_of_getElem? {names : List String} (hn : names.Nodup) {name : String} {id : Byte}
    (h : names[id.toNat]? = some name) : idOfName names name = some id := by
  obtain ⟨hlt, rfl⟩ := List.getElem?_eq_some_iff.1 h
  have hidx : names.findIdx? (· == names[id.toNat]) = some id.toNat := by
    refine List.findIdx?_eq_some_iff_getElem.2 ⟨hlt, beq_self_eq_true _, fun j hj => ?_⟩
    rw [beq_iff_eq, hn.getElem_inj_iff]
    exact hj.ne
  have hid : id.toNat < 256 := id.isLt
  simp [idOfName, hidx, hid]

/-- An unknown name has no id. -/
theorem idOfName_of_notMem {names : List String} {name : String} (h : name ∉ names) : idOfName names name = none := by
  have hnone : names.findIdx? (· == name) = none := by
    simp only [List.findIdx?_eq_none_iff, beq_eq_false_iff_ne]
    rintro x hx rfl
    exact h hx
  simp only [idOfName, hnone]

/-- Settles O56: the three mnemonics look their first operand up in the names of the command table. -/
theorem assemblerResolvesCommandNames : Obligations.AssemblerResolvesCommandNames := by
  intro cfg name buf hwf
  simp only [asmInstr_encCmd, asmInstr_cmdInfo, asmInstr_encCmdcrc, withIdBuffer, withId, Operand.tableId?]
  constructor
  · rintro id e he rfl
    have hid : idOfName (cfg.cmdTable.map (·.name)) e.name = some id := idOfName_of_getElem? hwf.names (by simp [he])
    simp [hid, withBuffer, Operand.buffer?]
  · intro hne
    have hid : idOfName (cfg.cmdTable.map (·.name)) name = none := idOfName_of_notMem (by simpa using hne)
    simp [hid]

end Sys2Proof.Proofs
end

section
/-! PROOFS of the family 41_checksum.md: the answers of the checksum operations (R100 to R104), the buffers whose
checksum is 0 whatever they carry (R103, R107), and the single-bit errors that CRC.VERIFY detects (R106). -/

namespace Sys2Proof.Proofs

open Sys2Proof.Machine Sys2Proof.Safety Sys2Proof.Laws

/-! ## The machine's words and the numbers of the claims -/

/-- A seed in range is the accumulator of the claims, and the checksum fits the 32-bit result. -/
theorem ofNat_crcOver {seed : Word32} (h : seed.toNat < 2 ^ 16) (cfg : Config) (buf : Bytes) :
    BitVec.ofNat 32 (crcOver cfg.crcTable seed.toNat buf) = (crcCompute cfg (seed.setWidth 16) buf).setWidth 32 := by
  have hseed : (seed.setWidth 16 : Word16).toNat = seed.toNat := by
    rw [BitVec.toNat_setWidth, Nat.mod_eq_of_lt h]
  rw [← hseed, crcOver_eq, BitVec.ofNat_toNat]

theorem crcOver_zero (cfg : Config) (buf : Bytes) : crcOver cfg.crcTable 0 buf = (crcCompute cfg 0 buf).toNat :=
  crcOver_eq cfg 0 buf

/-- The high byte and the low byte of a 16-bit word, as numbers. -/
theorem be16Bytes_eq (w : Word16) : be16Bytes w = [BitVec.ofNat 8 (w.toNat / 256), BitVec.ofNat 8 w.toNat] := by
  simp [be16Bytes, BitVec.extractLsb', Nat.shiftRight_eq_div_pow]

/-! ## The answers of the operations with a buffer within the bound -/

theorem exec_crcCompute_of_le {s : State} {buf : Bytes} (hd : buf.length ≤ s.cfg.maxDin) {seed : Word32}
    (h : seed.toNat < 2 ^ 16) :
    exec (.crcCompute seed buf) s = .next (answered s
      { status := 0x00, r0 := some ((crcCompute s.cfg (seed.setWidth 16) buf).setWidth 32) }) := by
  simp only [exec, execCrcCompute, bounded_of_le hd, if_neg (Nat.not_le.2 h)]
  rfl

theorem exec_crcVerify_of_le {s : State} {buf : Bytes} (hd : buf.length ≤ s.cfg.maxDin) :
    exec (.crcVerify buf) s = .next (answered s
      { status := 0x00, r0 := some (if crcCompute s.cfg 0 buf = 0 then 1 else 0) }) := by
  simp only [exec, execCrcVerify, bounded_of_le hd, checksumValid, boolWord, beq_iff_eq]
  rfl

/-- CRC.VERIFY answers 1 exactly for the buffers whose checksum is 0. -/
theorem exec_crcVerify_eq_one_iff {s : State} {buf : Bytes} (hd : buf.length ≤ s.cfg.maxDin) :
    exec (.crcVerify buf) s = .next (answered s { status := 0x00, r0 := some 1 }) ↔ crcCompute s.cfg 0 buf = 0 := by
  rw [exec_crcVerify_of_le hd]
  constructor
  · intro h
    have hr0 := congrArg Response.r0 (answered_inj (Host.Outcome.next.inj h))
    simpa using hr0
  · intro h
    rw [if_pos h]

/-! ## The results (R100 to R104) -/

/-- Settles O26: the range of the index, and the entry at it. -/
theorem crcTableResult : Obligations.CrcTableResult := by
  intro s index
  refine ⟨rfl, fun h => ?_, fun h => ?_⟩
  · simp only [exec, execCrcTable, if_pos h]
    rfl
  · have hback : (index.setWidth 8).setWidth 32 = index := by
      apply BitVec.eq_of_toNat_eq
      simp only [BitVec.toNat_setWidth]
      omega
    have hidx : (index.setWidth 8 : Byte).toNat = index.toNat := by
      rw [BitVec.toNat_setWidth, Nat.mod_eq_of_lt h]
    have hentry := exec_crcTable_byte s (index.setWidth 8)
    simpa only [hback, tableAt, hidx] using hentry

/-- Settles O19: the two ranges in their order, and one turn of the loop on the accumulator. -/
theorem crcStepResult : Obligations.CrcStepResult := by
  intro s acc byte
  refine ⟨rfl, fun hacc => ?_, fun hacc hbyte => ?_, fun hacc hbyte => ?_⟩
  · simp only [exec, execCrcStep, if_pos hacc]
    rfl
  · simp only [exec, execCrcStep, if_neg (Nat.not_le.2 hacc), if_pos hbyte]
    rfl
  · rw [ofNat_crcOver hacc]
    simp only [exec, execCrcStep, if_neg (Nat.not_le.2 hacc), if_neg (Nat.not_le.2 hbyte)]
    rfl

/-- Settles O20: the range of the seed, and the loop from it. -/
theorem crcComputeResult : Obligations.CrcComputeResult := by
  intro s seed buf
  refine ⟨rfl, fun hd => ⟨fun h => ?_, fun h => ?_⟩⟩
  · simp only [exec, execCrcCompute, bounded_of_le hd, if_pos h]
    rfl
  · rw [ofNat_crcOver h, exec_crcCompute_of_le hd h]

/-- Settles O22: the loop from 0 leaves 0 exactly when its number is 0. -/
theorem crcVerifyResult : Obligations.CrcVerifyResult := by
  intro s buf
  refine ⟨rfl, fun hd => ?_⟩
  have hzero : (crcCompute s.cfg 0 buf).toNat = 0 ↔ crcCompute s.cfg 0 buf = 0 :=
    (BitVec.toNat_eq (y := 0)).symm
  rw [exec_crcVerify_of_le hd]
  simp only [crcOver_zero, hzero]

/-! ## Buffers that verify (R103, R107) -/

/-- Settles O24: `dout` is the buffer and the two bytes of its checksum, on which the loop ends at 0. -/
theorem crcAppendThenVerify : Obligations.CrcAppendThenVerify := by
  intro s buf
  refine ⟨rfl, fun hd => ?_⟩
  dsimp only
  rw [crcOver_zero, ← be16Bytes_eq, BitVec.ofNat_toNat]
  constructor
  · simp only [exec, execCrcAppend, bounded_of_le hd]
    rfl
  · intro hwf hout
    exact (exec_crcVerify_eq_one_iff hout).2 (crcCompute_append_self hwf 0 buf)

/-- Settles O23: zero bytes leave the accumulator 0 at 0, and the loop goes on over `d` from there. -/
theorem leadingZerosUndetected : Obligations.LeadingZerosUndetected := by
  intro s n d hwf hlen
  constructor
  · rw [exec_crcCompute_of_le (by simpa using hlen) (by decide), exec_crcCompute_of_le (by omega) (by decide)]
    have hseed : (0 : Word32).setWidth 16 = (0 : Word16) := rfl
    rw [hseed, crcCompute_append, crcCompute_zeros hwf]
  · refine (exec_crcVerify_eq_one_iff ?_).2 (crcCompute_zeros hwf n)
    rw [List.length_replicate]
    omega

/-! ## Changed bytes (R106) -/

/-- Two bytes take one accumulator to two accumulators: no entry of the table but the first is 0. -/
theorem crcStep_right_injective {cfg : Config} (h : CrcTableWF cfg.crcTable) (acc : Word16) :
    Function.Injective (crcStep cfg acc) := by
  intro b b' heq
  have hstep : crcStep cfg (acc ^^^ acc) (b ^^^ b') = 0 := by
    rw [crcStep_xor h, heq]
    exact BitVec.xor_self
  have hentry : crcGen (b ^^^ b') = 0 := by
    rw [← tableAt_eq h]
    simpa [crcStep] using hstep
  have hzero := crcGen_low_eq_zero (b ^^^ b').toFin (by rw [BitVec.ofFin_toFin, hentry]; rfl)
  exact BitVec.xor_eq_zero_iff.1 (BitVec.eq_of_toFin_eq hzero)

/-- One buffer takes two accumulators to two accumulators. -/
theorem crcCompute_left_injective {cfg : Config} (h : CrcTableWF cfg.crcTable) (buf : Bytes) :
    Function.Injective fun acc => crcCompute cfg acc buf := by
  intro acc acc' heq
  have hzeros : List.zipWith (· ^^^ ·) buf buf = List.replicate buf.length 0 := by
    simp [List.zipWith_self]
  have hdiff : crcCompute cfg (acc ^^^ acc') (List.replicate buf.length 0) = 0 := by
    rw [← hzeros, crcCompute_xor h _ _ _ _ rfl]
    exact BitVec.xor_eq_zero_iff.2 heq
  exact BitVec.xor_eq_zero_iff.1 (eq_zero_of_crcCompute_zeros h _ hdiff)

/-- A change of one byte changes the checksum. -/
theorem crcCompute_set_ne {cfg : Config} (h : CrcTableWF cfg.crcTable) (seed : Word16) {d : Bytes} {i : Nat}
    (hi : i < d.length) {b : Byte} (hb : b ≠ d[i]) : crcCompute cfg seed (d.set i b) ≠ crcCompute cfg seed d := by
  intro heq
  have hd : d = d.take i ++ d[i] :: d.drop (i + 1) := by simp
  rw [List.set_eq_take_append_cons_drop, if_pos hi] at heq
  conv_rhs at heq => rw [hd]
  simp only [crcCompute_append, crcCompute_cons] at heq
  exact hb (crcStep_right_injective h _ (crcCompute_left_injective h _ heq))

/-- A byte with one bit set is not 0. -/
theorem one_shiftLeft_ne_zero {k : Nat} (hk : k < 8) : 1#8 <<< k ≠ 0#8 := by
  interval_cases k <;> decide

/-- Settles O25: a flipped bit changes one byte, and so the checksum, which was 0. -/
theorem singleBitErrorsDetected : Obligations.SingleBitErrorsDetected := by
  intro s d i k hi hwf hlen hk hvalid
  have hzero := (exec_crcVerify_eq_one_iff hlen).1 hvalid
  have hflip : d[i] ^^^ (1#8 <<< k) ≠ d[i] := fun h => one_shiftLeft_ne_zero hk (by simpa using h)
  have hne := crcCompute_set_ne hwf 0 hi hflip
  rw [hzero] at hne
  rw [exec_crcVerify_of_le (by simpa using hlen), if_neg hne]

end Sys2Proof.Proofs
end

section
/-! PROOFS of the family 42_frame_parser.md: the answers of the FLD operations (R133 to R137), the checks of FRM.DECODE
and its record (R130, R138 to R144), the ignored bytes (R125), and the extractor against the parser (R132). -/

namespace Sys2Proof.Proofs

open Sys2Proof.Machine Sys2Proof.Safety Sys2Proof.Laws

/-! ## The scalars of the FLD operations as numbers (00_scope.md R9) -/

theorem toInt_eq_signedScalar (x : Word32) : x.toInt = signedScalar x := by
  rw [BitVec.toInt_eq_toNat_cond, signedScalar]
  split_ifs <;> omega

/-- A scalar in the range of a byte, read as a signed byte. -/
theorem toInt_setWidth_byte {x : Word32} (h : x.toNat < 256) :
    (x.setWidth 8 : Byte).toInt = signedInt .one true x.toNat := by
  have hx : (x.setWidth 16 : Word16).toNat = x.toNat := by
    rw [BitVec.toNat_setWidth]
    omega
  rw [← hx, ← fieldValue_eq .one true _ (hx.trans_lt h), fieldValue, BitVec.setWidth_setWidth_of_le _ (by decide)]

/-- The value of a field of at most 16 bits is its 32-bit pattern, read as signed. -/
theorem toInt_pattern32_fieldValue (w : Width) (signed : Bool) (raw : Word16) :
    (pattern32 (fieldValue w signed raw)).toInt = fieldValue w signed raw := by
  obtain ⟨hlow, hhigh⟩ : -2 ^ 31 ≤ fieldValue w signed raw ∧ fieldValue w signed raw < 2 ^ 31 := by
    cases signed with
    | false =>
      have hraw := raw.isLt
      cases w <;> simp only [fieldValue] <;> omega
    | true =>
      cases w with
      | one =>
        have hlow := (raw.setWidth 8).le_toInt
        have hhigh := (raw.setWidth 8).toInt_lt
        simp only [fieldValue]
        omega
      | two =>
        have hlow := raw.le_toInt
        have hhigh := raw.toInt_lt
        simp only [fieldValue]
        omega
  exact BitVec.toInt_ofInt_eq_self (by decide) hlow hhigh

/-! ## The FLD operations (R133 to R137) -/

/-- Settles O36: the scalar's signed value, scaled exactly. -/
theorem fldScaleResult : Obligations.FldScaleResult := by
  intro s kind raw
  refine ⟨by cases kind <;> rfl, ?_⟩
  rw [← scaleValue_eq, ← toInt_eq_signedScalar]
  rfl

/-- Settles O37: the range of the scalar, then the one entry of its code, if any. -/
theorem fldTrendResult : Obligations.FldTrendResult := by
  intro s raw
  refine ⟨rfl, fun hwf => ⟨fun h => ?_, fun h i e hi he => ?_, fun h hnone => ?_⟩⟩
  · simp only [exec, execFldTrend, if_pos h]
    rfl
  · have ht : trendOf s.cfg.trendTable (signedInt .one true raw.toNat) = some i :=
      (trendOf_eq_some hwf.unique _ i).2 (by simp [hi, he])
    have hlt : i < 2 ^ 32 := by
      have := (trendOf_lt ht).trans_le (length_trendTable hwf)
      omega
    simp only [exec, execFldTrend, if_neg (Nat.not_le.2 h), toInt_setWidth_byte h, ht, scalar_of_lt hlt]
    rfl
  · have ht := (trendOf_eq_none _ _).2 hnone
    simp only [exec, execFldTrend, if_neg (Nat.not_le.2 h), toInt_setWidth_byte h, ht]
    rfl

/-- Settles O38: the range of the scalar, then that of the directions. -/
theorem fldWinddirResult : Obligations.FldWinddirResult := by
  intro s raw
  refine ⟨rfl, fun h => ?_, fun h => ?_, fun h hrange => ?_⟩
  · simp only [exec, execFldWinddir, if_pos h]
    rfl
  · have hd : windDirection raw.toNat = some (raw.setWidth 16) := by
      rw [windDirection, if_pos (by omega), BitVec.ofInt_natCast]
      rfl
    have hback : (raw.setWidth 16).setWidth 32 = raw := by
      apply BitVec.eq_of_toNat_eq
      simp only [BitVec.toNat_setWidth]
      omega
    simp only [exec, execFldWinddir, if_neg (show ¬ 2 ^ 16 ≤ raw.toNat by omega), hd, hback]
    rfl
  · have hd : windDirection raw.toNat = none := if_neg (by omega)
    simp only [exec, execFldWinddir, if_neg (Nat.not_le.2 h), hd]
    rfl

/-- Settles O39: the two ranges in their order, then the product. -/
theorem fldRainResult : Obligations.FldRainResult := by
  intro s clicks num den
  refine ⟨rfl, fun h => ?_, fun h hden => ?_, fun h hden => ?_⟩
  · simp only [exec, execFldRain, if_pos h]
    rfl
  · simp only [exec, execFldRain, if_neg (Nat.not_le.2 h), if_pos hden]
    rfl
  · simp only [exec, execFldRain, if_neg (Nat.not_le.2 h), if_neg hden, rainAmount_eq]
    rfl

/-- Settles O34: the field's place in the buffer, then the field (`exec_fldExtract_of_le`). -/
theorem fldExtractResult : Obligations.FldExtractResult := by
  intro s fmt offset din
  refine ⟨?_, fun hd => ⟨fun h => ?_, exec_fldExtract_of_le hd⟩⟩
  · obtain ⟨wide, signed, big⟩ := fmt
    cases wide <;> cases signed <;> cases big <;> rfl
  · have h' : din.length < offset.toNat + (formatWidth fmt).bytes := h
    simp only [exec, execFldExtract, bounded_of_le hd, if_pos h']
    rfl

/-! ## The answers of FRM.DECODE (R130) -/

/-- Settles O28: the length comes before the bound, the ratio after it. -/
theorem frmDecodeChecksLengthThenRatio : Obligations.FrmDecodeChecksLengthThenRatio := by
  intro s num den din
  refine ⟨rfl, fun h => exec_frmDecode_of_length_ne h num den s, fun hlen hmax hden => ?_⟩
  simp only [exec, execFrmDecode, hlen, bounded_of_le (hlen.trans_le hmax), if_pos hden]
  rfl

section Checked

/-! The frame has passed the length check and the bound, and the ratio its check. -/

variable {s : State} {num den : Word32} {din : Bytes} (hmax : 99 ≤ s.cfg.maxDin) (hlen : din.length = 99)
  (hden : den ≠ 0)
include hmax hlen hden

theorem exec_frmDecode_of_mismatch {f : FixedField} (h : firstFixedMismatch s.cfg.layout.fixed din = some f) :
    exec (.frmDecode num den din) s
      = .next (answered s (raiseFixed f.off f.value (readField din f.off f.width))) := by
  simp only [exec, execFrmDecode, hlen, bounded_of_le (hlen.trans_le hmax), if_neg hden, h]
  rfl

theorem exec_frmDecode_of_match (h : firstFixedMismatch s.cfg.layout.fixed din = none) :
    exec (.frmDecode num den din) s
      = .next (answered s { status := 0x00, record := some (decodeRecord s.cfg num den din) }) := by
  simp only [exec, execFrmDecode, hlen, bounded_of_le (hlen.trans_le hmax), if_neg hden, h]
  rfl

end Checked

/-- A field that differs is the one reported when every field at a smaller offset matches: no two fields of a well-formed
layout share an offset. -/
theorem firstFixedMismatch_eq_some {l : Layout} (hl : l.WF) {din : Bytes} {f : FixedField} (hf : f ∈ l.fixed)
    (hd : fixedDiffers din f = true) (hbefore : ∀ g ∈ l.fixed, g.off < f.off → fixedDiffers din g = false) :
    firstFixedMismatch l.fixed din = some f := by
  cases hm : firstFixedMismatch l.fixed din with
  | none =>
    have := (firstFixedMismatch_eq_none _ _).1 hm f hf
    simp [hd] at this
  | some g =>
    obtain ⟨hg, hgd, hgbefore⟩ := firstFixedMismatch_spec hm
    have hgf : ¬ g.off < f.off := fun hlt => by simp [hbefore g hg hlt] at hgd
    have hfg : ¬ f.off < g.off := fun hlt => by simp [hgbefore f hf hlt] at hd
    rw [fixed_eq_of_off hl hg hf (by omega)]

/-- Settles O29: the field is the one the check reports (`firstFixedMismatch_eq_some`). -/
theorem frmDecodeReportsFirstFixedMismatch : Obligations.FrmDecodeReportsFirstFixedMismatch := by
  intro s num den din f h hwf hlen hden hf hne hbefore
  have hinside : ∀ g ∈ s.cfg.layout.fixed, g.off + g.width.bytes ≤ din.length := fun g hg => by
    have := inside_of_mem_fixed hwf.layout hg
    omega
  have hd : fixedDiffers din f = true := by
    rw [← Bool.not_eq_false, fixedDiffers_eq_false h]
    exact hne
  have hm := firstFixedMismatch_eq_some hwf.layout hf hd fun g hg hlt =>
    (fixedDiffers_eq_false (hinside g hg)).2 (hbefore g hg hlt _)
  rw [exec_frmDecode_of_mismatch hwf.maxDin hlen hden hm, raiseFixed, scalar_of_lt (by omega), ← readField_toNat,
    BitVec.ofNat_toNat]
  rfl

/-! ## The record (R130, R138 to R144) -/

/-- A value field's sentinel is compared with the number its bytes stand for (R138). -/
theorem sentinel_eq_iff {v : ValueField} {din : Bytes} (h : v.off + v.width.bytes ≤ din.length) :
    v.sentinel.map (·.toNat) = some (fieldNat din v.off v.width false h) ↔
      v.sentinel = some (readField din v.off v.width) := by
  rw [← readField_toNat]
  cases v.sentinel <;> simp [BitVec.toNat_inj]

theorem presentValue_of_sentinel {v : ValueField} {din : Bytes} (h : v.sentinel = some (readField din v.off v.width)) :
    presentValue v din = none :=
  if_pos h

theorem presentValue_of_not_sentinel {v : ValueField} {din : Bytes}
    (h : v.sentinel ≠ some (readField din v.off v.width)) :
    presentValue v din = some (fieldValue v.width v.signed (readField din v.off v.width)) :=
  if_neg h

/-- What a stored value field without a value leaves in the record (R138). -/
theorem attributeAbsent_of_stored {cfg : Config} {num den : Word32} {din : Bytes} {rec : Loop2Record} {v : ValueField}
    (hst : Stored cfg num den din rec v) (h : presentValue v din = none) : AttributeAbsent rec v.target := by
  unfold Stored at hst
  unfold AttributeAbsent
  rw [h] at hst
  cases ht : v.target <;> simpa only [ht, Option.map_none, Option.bind_none] using hst

/-- What a stored value field with a value leaves in the record is what R139 to R142 make of the value. -/
theorem attributeIs_of_stored {cfg : Config} (htrend : TrendTableWF cfg.trendTable) {num den : Word32} {din : Bytes}
    {rec : Loop2Record} {v : ValueField} (hst : Stored cfg num den din rec v) {x : Int}
    (h : presentValue v din = some x) : AttributeIs cfg num den rec v.target x := by
  unfold Stored at hst
  unfold AttributeIs
  rw [h] at hst
  cases ht : v.target <;> simp only [ht] at hst ⊢
  case scaled a k => rw [hst, Option.map_some, scaleValue_eq]
  case winddir a => exact hst
  case rain a => rw [hst, Option.map_some, rainAmount_eq]
  case trend => exact fun i => hst ▸ trendOf_eq_some htrend.unique x i

/-- Settles O30: the record is the decoded one, its flag the checksum over the frame, and each value field stored. -/
theorem frmDecodeReturnsRecord : Obligations.FrmDecodeReturnsRecord := by
  intro s num den din hwf hlen hden hfix
  have hm : firstFixedMismatch s.cfg.layout.fixed din = none :=
    (firstFixedMismatch_eq_none _ _).2 fun f hf => by
      have hinside := inside_of_mem_fixed hwf.layout hf
      exact (fixedDiffers_eq_false (by omega)).2 (hfix f hf _)
  refine ⟨_, exec_frmDecode_of_match hwf.maxDin hlen hden hm, ?_, fun v hv h => ?_⟩
  · rw [crcOk_decodeRecord, crcOver_zero, checksumValid, beq_iff_eq, BitVec.toNat_eq]
    rfl
  · have hst := stored_decodeRecord hwf.layout num den din hv
    rw [ne_eq, sentinel_eq_iff h, ← readField_toNat, ← fieldValue_eq _ _ _ (readField_lt ..)]
    exact ⟨fun hs => attributeAbsent_of_stored hst (presentValue_of_sentinel hs),
      fun hs => attributeIs_of_stored hwf.trendTable hst (presentValue_of_not_sentinel hs)⟩

/-! ## Ignored bytes (R125) -/

theorem byteAt_congr {a b : Bytes} {i : Nat} (hi : i < a.length) (h : a[i]? = b[i]?) : byteAt a i = byteAt b i := by
  simp [byteAt, ← h, hi]

/-- A field inside the frame reads its own bytes only. -/
theorem readField_congr {a b : Bytes} {o : Nat} {w : Width} (ha : o + w.bytes ≤ a.length)
    (h : ∀ i, o ≤ i → i < o + w.bytes → a[i]? = b[i]?) : readField a o w = readField b o w := by
  have hbyte : ∀ i, o ≤ i → i < o + w.bytes → byteAt a i = byteAt b i := fun i h1 h2 =>
    byteAt_congr (h2.trans_le ha) (h i h1 h2)
  cases w with
  | one => simp only [readField, hbyte o le_rfl (by simp [Width.bytes])]
  | two =>
    simp only [readField, le16, hbyte o le_rfl (by simp [Width.bytes]),
      hbyte (o + 1) (Nat.le_succ o) (by simp [Width.bytes])]

theorem firstFixedMismatch_congr {fs : List FixedField} {a b : Bytes}
    (h : ∀ f ∈ fs, readField a f.off f.width = readField b f.off f.width) :
    firstFixedMismatch fs a = firstFixedMismatch fs b :=
  List.find?_congr fun f hf => by rw [fixedDiffers, fixedDiffers, h f ((mem_sortFixed f fs).1 hf)]

theorem storeValue_congr {cfg : Config} {num den : Word32} {a b : Bytes} (rec : Loop2Record) {v : ValueField}
    (h : readField a v.off v.width = readField b v.off v.width) :
    storeValue cfg num den a rec v = storeValue cfg num den b rec v := by
  simp only [storeValue, presentValue, h]

/-- The value fields of a record do not depend on its flag. -/
theorem foldl_storeValue_setCrcOk (cfg : Config) (num den : Word32) (din : Bytes) (values : List ValueField)
    (rec : Loop2Record) (b : Bool) :
    { values.foldl (storeValue cfg num den din) rec with crcOk := b }
      = values.foldl (storeValue cfg num den din) { rec with crcOk := b } := by
  induction values generalizing rec with
  | nil => rfl
  | cons v rest ih => rw [List.foldl_cons, List.foldl_cons, ih, storeValue_setCrcOk]

/-- Frames whose value fields agree have records that differ in the flag alone. -/
theorem decodeRecord_congr {cfg : Config} {num den : Word32} {a b : Bytes}
    (h : ∀ v ∈ cfg.layout.values, readField a v.off v.width = readField b v.off v.width) :
    decodeRecord cfg num den b = { decodeRecord cfg num den a with crcOk := checksumValid cfg b } := by
  rw [decodeRecord, decodeRecord, foldl_storeValue_setCrcOk]
  exact List.foldl_ext _ _ _ fun rec v hv => (storeValue_congr rec (h v hv)).symm

/-- Settles O32: both frames fail the same check with the same information, or both give a record. -/
theorem ignoredBytesReachOnlyTheFlag : Obligations.IgnoredBytesReachOnlyTheFlag := by
  intro s num den a b hwf ha hb hab
  have hread : ∀ o w, (o, Width.bytes w) ∈ s.cfg.layout.spans → readField a o w = readField b o w :=
    fun o w hp => by
      have hinside := hwf.layout.inside _ hp
      exact readField_congr (by omega) (hab _ hp)
  have hfixed : ∀ f ∈ s.cfg.layout.fixed, readField a f.off f.width = readField b f.off f.width := fun f hf =>
    hread _ _ (List.mem_append_left _ (List.mem_map_of_mem hf))
  have hvalues : ∀ v ∈ s.cfg.layout.values, readField a v.off v.width = readField b v.off v.width := fun v hv =>
    hread _ _ (List.mem_append_right _ (List.mem_map_of_mem hv))
  by_cases hden : den = 0
  · obtain ⟨-, -, hratio⟩ := frmDecodeChecksLengthThenRatio s num den a
    obtain ⟨-, -, hratio'⟩ := frmDecodeChecksLengthThenRatio s num den b
    exact ⟨{ status := 0x22, r0 := some 2 }, true, true, hratio ha hwf.maxDin hden, hratio' hb hwf.maxDin hden⟩
  · have hfirst := firstFixedMismatch_congr hfixed
    cases hm : firstFixedMismatch s.cfg.layout.fixed a with
    | some f =>
      obtain ⟨hf, -, -⟩ := firstFixedMismatch_spec hm
      refine ⟨raiseFixed f.off f.value (readField a f.off f.width), true, true,
        exec_frmDecode_of_mismatch hwf.maxDin ha hden hm, ?_⟩
      rw [exec_frmDecode_of_mismatch hwf.maxDin hb hden (hfirst ▸ hm), ← hfixed f hf]
      rfl
    | none =>
      refine ⟨{ status := 0x00, record := some (decodeRecord s.cfg num den a) }, checksumValid s.cfg a,
        checksumValid s.cfg b, ?_, ?_⟩
      · rw [exec_frmDecode_of_match hwf.maxDin ha hden hm, Option.map_some, ← crcOk_decodeRecord]
      · rw [exec_frmDecode_of_match hwf.maxDin hb hden (hfirst ▸ hm), decodeRecord_congr hvalues]
        rfl

/-! ## The extractor against the parser (R132) -/

/-- The format of a value field (R132): its width and sign, little-endian. -/
def valueFormat (v : ValueField) : FieldFormat :=
  ⟨v.width == .two, v.signed, false⟩

@[simp] theorem formatWidth_valueFormat (v : ValueField) : formatWidth (valueFormat v) = v.width := by
  unfold valueFormat formatWidth
  cases v.width <;> rfl

@[simp] theorem readFormat_valueFormat (v : ValueField) (din : Bytes) (o : Nat) :
    readFormat (valueFormat v) din o = readField din o v.width := by
  rw [readFormat, if_neg (by simp [valueFormat]), formatWidth_valueFormat]

/-- FLD.EXTRACT with the format of a value field reads what FRM.DECODE reads for it. -/
theorem exec_fldExtract_valueFormat {s : State} {din : Bytes} {v : ValueField} (hd : din.length ≤ s.cfg.maxDin)
    (h : v.off + v.width.bytes ≤ din.length) (hoff : v.off < 2 ^ 32) :
    exec (.fldExtract (valueFormat v) (BitVec.ofNat 32 v.off) din) s = .next (answered s
      { status := 0x00
        r0 := some (pattern32 (fieldValue v.width v.signed (readField din v.off v.width)))
        r1 := some ((readField din v.off v.width).setWidth 32) }) := by
  have ho : (BitVec.ofNat 32 v.off).toNat = v.off := by rw [BitVec.toNat_ofNat, Nat.mod_eq_of_lt hoff]
  simp only [exec, execFldExtract, bounded_of_le hd, ho, formatWidth_valueFormat, readFormat_valueFormat,
    if_neg (Nat.not_lt.2 h)]
  rfl

/-- Settles O33: the pattern of FLD.EXTRACT, read as signed, is the value FRM.DECODE scales, and its raw field is what
the sentinel is compared with. -/
theorem extractAndScaleAgreeWithDecode : Obligations.ExtractAndScaleAgreeWithDecode := by
  intro s num den din rec v a k hwf hrec hv ht
  obtain ⟨hlen, -, -, rfl⟩ := exec_frmDecode_record hrec
  have hinside := inside_of_mem_values hwf.layout hv
  refine ⟨_, _, _, exec_fldExtract_valueFormat (hlen.trans_le hwf.maxDin) (by omega) (by omega), rfl, fun hs => ?_⟩
  have hraw : v.sentinel ≠ some (readField din v.off v.width) := fun h => hs (by rw [h, Option.map_some])
  have hst := stored_decodeRecord hwf.layout num den din hv
  simp only [Stored, ht] at hst
  rw [hst, presentValue_of_not_sentinel hraw, toInt_pattern32_fieldValue, Option.map_some]

end Sys2Proof.Proofs
end

section
/-! PROOFS of the family 43_command_encoder.md: the command and token tables (R162 to R164, R176, R177), hex strings
(R165), texts (R170), and packed dates and times (R172 to R175, R178). -/

namespace Sys2Proof.Proofs

open Sys2Proof.Machine Sys2Proof.Safety Sys2Proof.Laws

/-! ## The command table (R162 to R164) -/

/-- ENC.CMD within the bound, of an id that has an entry: the presence of parameters is checked against the entry's
completeness, in both directions (R163). -/
theorem exec_encCmd_of_entry {s : State} {id : Byte} {params : Bytes} {e : CmdEntry}
    (hd : params.length ≤ s.cfg.maxDin) (he : s.cfg.cmdTable[id.toNat]? = some e) :
    exec (.encCmd id params) s = .next (answered s
      (if e.isComplete = true ∧ params ≠ [] then raiseParamsUnexpected id
        else if e.isComplete = false ∧ params = [] then raiseParamsMissing id
        else okay (dout := some (e.template ++ params)))) := by
  simp only [exec, execEncCmd, bounded_of_le hd, he]
  rfl

/-- ENC.CMD within the bound, of an id that has no entry (R163). -/
theorem exec_encCmd_of_none {s : State} {id : Byte} {params : Bytes} (hd : params.length ≤ s.cfg.maxDin)
    (he : s.cfg.cmdTable[id.toNat]? = none) :
    exec (.encCmd id params) s = .next (answered s (raiseBadId id)) := by
  simp only [exec, execEncCmd, bounded_of_le hd, he]
  rfl

/-- Settles O40: the entry of the id, if any, and the two ways the parameters can disagree with it. -/
theorem encCmdResult : Obligations.EncCmdResult := by
  intro s id params
  refine ⟨rfl, fun hd => ⟨fun hid => ?_, fun e he => ?_⟩⟩
  · rw [exec_encCmd_of_none hd (List.getElem?_eq_none hid)]
    rfl
  · rw [exec_encCmd_of_entry hd he]
    refine ⟨fun hc hp => ?_, fun hc hp => ?_, fun hagree => ?_⟩
    · rw [if_pos ⟨hc, hp⟩]
      rfl
    · rw [if_neg (by simp [hc]), if_pos ⟨hc, hp⟩]
      rfl
    · rw [if_neg (fun h => h.2 (hagree.1 h.1)), if_neg (fun h => by simp [hagree.2 h.2] at h)]
      rfl

/-- Tables that differ in their marks alone have at each id no entry, or entries of one template and completeness. -/
theorem getElem?_of_sameButMarks {a b : List CmdEntry} (h : SameButMarks a b) (i : Nat) :
    (a[i]? = none ∧ b[i]? = none) ∨
      ∃ e f, a[i]? = some e ∧ b[i]? = some f ∧ e.template = f.template ∧ e.isComplete = f.isComplete := by
  have hi := congrArg (·[i]?) h
  simp only [List.getElem?_map] at hi
  cases ha : a[i]? with
  | none => exact .inl ⟨rfl, by simpa [ha] using hi.symm⟩
  | some e =>
    rw [ha, Option.map_some] at hi
    obtain ⟨f, hb, hef⟩ := Option.map_eq_some_iff.1 hi.symm
    simp only [Prod.mk.injEq] at hef
    obtain ⟨-, htemplate, hcomplete⟩ := hef
    exact .inr ⟨e, f, rfl, hb, htemplate.symm, hcomplete.symm⟩

/-- Settles O41: the answer reads the bound, the template and the completeness, on which the two tables agree. -/
theorem destructiveMarkChangesNoEncoding : Obligations.DestructiveMarkChangesNoEncoding := by
  intro s t id params hsame hmax
  by_cases hd : params.length ≤ s.cfg.maxDin
  · have hd' := hmax ▸ hd
    rcases getElem?_of_sameButMarks hsame id.toNat with ⟨hs, ht⟩ | ⟨e, f, hs, ht, htemplate, hcomplete⟩
    · exact ⟨_, exec_encCmd_of_none hd hs, exec_encCmd_of_none hd' ht⟩
    · refine ⟨_, exec_encCmd_of_entry hd hs, ?_⟩
      rw [exec_encCmd_of_entry hd' ht, htemplate, hcomplete]
  · obtain ⟨hrefused, -⟩ := longBufferRefusedFirst (.encCmd id params) s
    obtain ⟨hrefused', -⟩ := longBufferRefusedFirst (.encCmd id params) t
    exact ⟨_, hrefused _ rfl (Nat.lt_of_not_le hd), hrefused' _ rfl (hmax ▸ Nat.lt_of_not_le hd)⟩

/-- The two marks do not overlap, so their word is their sum (R164). -/
theorem cmdFlags_eq (e : CmdEntry) :
    cmdFlags e = BitVec.ofNat 32 ((if e.isComplete then 1 else 0) + (if e.destructive then 2 else 0)) := by
  unfold cmdFlags
  cases e.isComplete <;> cases e.destructive <;> rfl

/-- Settles O42: the entry of the id, if any, with its marks as a number. -/
theorem cmdInfoResult : Obligations.CmdInfoResult := by
  intro s id
  refine ⟨rfl, fun hid => ?_, fun e he hlen => ?_⟩
  · simp only [exec, execCmdInfo, List.getElem?_eq_none hid]
    rfl
  · simp only [exec, execCmdInfo, he, scalar_of_lt hlen, cmdFlags_eq]
    rfl

/-! ## The token table (R176, R177) -/

/-- Settles O53: the token of the id, if any, against the whole buffer. -/
theorem rspMatchResult : Obligations.RspMatchResult := by
  intro s id din
  refine ⟨rfl, fun hd => ⟨fun hid => ?_, fun t ht => ?_⟩⟩
  · simp only [exec, execRspMatch, bounded_of_le hd, List.getElem?_eq_none hid]
    rfl
  · simp only [exec, execRspMatch, bounded_of_le hd, ht, boolWord, beq_iff_eq]
    constructor
    · intro h
      rw [if_pos h]
      rfl
    · intro h
      rw [if_neg h]
      rfl

/-- Settles O54: the token of the id, if any. -/
theorem rspInfoResult : Obligations.RspInfoResult := by
  intro s id
  refine ⟨rfl, fun hid => ?_, fun t ht hlen => ?_⟩
  · simp only [exec, execRspInfo, List.getElem?_eq_none hid]
    rfl
  · simp only [exec, execRspInfo, ht, scalar_of_lt hlen]
    rfl

/-! ## Hex strings (R165) -/

/-- Settles O43: no byte stops the string, so the answer is its pairs (`getElem?_hexPairs`). -/
theorem encHexResult : Obligations.EncHexResult := by
  intro s din hd heven hdigits
  refine ⟨hexPairs din, ?_, ?_, getElem?_hexPairs din⟩
  · have hodd : ¬ din.length % 2 = 1 := by omega
    simp only [exec, execEncHex, bounded_of_le hd, if_neg hodd, (firstNonHex_eq_none din).2 hdigits]
    rfl
  · rw [length_hexPairs]
    omega

/-- Settles O44: the parity first, then the byte that stops the string (`firstNonHex_of_first`). -/
theorem encHexErrors : Obligations.EncHexErrors := by
  intro s din hd hlen
  constructor
  · intro hodd
    simp only [exec, execEncHex, bounded_of_le hd, if_pos hodd, raiseHexOdd, scalar_of_lt hlen]
    rfl
  · rintro heven before after c rfl hbefore hc
    have hodd : ¬ (before ++ c :: after).length % 2 = 1 := by omega
    have hindex : before.length < 2 ^ 32 := by
      simp only [List.length_append] at hlen
      omega
    have hbyte : byteAt (before ++ c :: after) before.length = c := by
      rw [byteAt_of_lt (by simp)]
      simp
    simp only [exec, execEncHex, bounded_of_le hd, if_neg hodd, firstNonHex_of_first before after c hbefore hc,
      raiseHexChar, hbyte, scalar_of_lt hindex]
    rfl

/-! ## Texts (R170) -/

/-- ENC.TEXT of a text whose code points all have bytes answers with these bytes, in order. -/
theorem exec_encText_of_encodable {s : State} {text : Text} (hd : text.length ≤ s.cfg.maxDin)
    (f : CodePoint → Bytes) (h : ∀ c ∈ text, encodePoint s.cfg.textHigh c.val = some (f c)) :
    exec (.encText text) s = .next (answered s { status := 0x00, dout := some (text.flatMap f) }) := by
  simp only [exec, execEncText, bounded_of_le hd, encodeText_ok _ f text 0 h]
  rfl

/-- A code point of at most 0x7F, or of at most 0xFF under `LATIN1`, is one byte. -/
theorem encodePoint_of_one_byte {high : TextHigh} {c : Nat} (h : c ≤ 0x7F ∨ (high = .latin1 ∧ c ≤ 0xFF)) :
    encodePoint high c = some [BitVec.ofNat 8 c] := by
  unfold encodePoint
  by_cases hlow : c ≤ 0x7F
  · rw [if_pos hlow]
  · obtain ⟨rfl, hc⟩ := h.resolve_left hlow
    rw [if_neg hlow]
    exact if_pos hc

/-- Settles O45: each code point is one byte. -/
theorem encTextOneByteEach : Obligations.EncTextOneByteEach := by
  intro s text hd h
  rw [exec_encText_of_encodable hd (fun c => [BitVec.ofNat 8 c.val]) fun c hc => encodePoint_of_one_byte (h c hc),
    List.map_eq_flatMap]

/-- The bytes of a code point under `UTF8`, none for a surrogate. -/
def utf8Bytes (c : CodePoint) : Bytes := (encodePoint .utf8 c.val).getD []

theorem utf8Bytes_pointOf (c : Char) : utf8Bytes (pointOf c) = (String.utf8EncodeChar c).map (·.toBitVec) := by
  rw [utf8Bytes, encodePoint_pointOf, Option.getD_some]

/-- Settles O46: each character has the bytes of Lean's own encoder (`encodePoint_pointOf`). -/
theorem encTextIsUtf8 : Obligations.EncTextIsUtf8 := by
  intro s chars hhigh hd
  have hpoints : ∀ c ∈ chars.map pointOf, encodePoint s.cfg.textHigh c.val = some (utf8Bytes c) := by
    intro c hc
    obtain ⟨x, -, rfl⟩ := List.mem_map.1 hc
    rw [hhigh, utf8Bytes_pointOf, encodePoint_pointOf]
  rw [exec_encText_of_encodable (by simpa using hd) utf8Bytes hpoints, List.flatMap_map, List.map_flatMap]
  simp only [utf8Bytes_pointOf]

/-- Settles O47: the text is refused at its first code point that cannot be encoded (`encodeText_error`). -/
theorem encTextReportsFirstUnencodable : Obligations.EncTextReportsFirstUnencodable := by
  intro s before after c hd hindex hbefore hc
  simp only [exec, execEncText, bounded_of_le hd, encodeText_error _ before after c 0 hbefore hc, raiseText,
    Nat.zero_add, scalar_of_lt hindex]
  rfl

/-! ## Packed dates and times (R172 to R175) -/

/-- A number in a range passes the check of the range. -/
theorem not_out_of_range {lo hi n : Nat} (h : lo ≤ n ∧ n ≤ hi) : ¬ (n < lo ∨ hi < n) := by
  omega

/-- Settles O48: the three ranges in their order, then the packed date as a number (`datePack_toNat`). -/
theorem datePackResult : Obligations.DatePackResult := by
  intro s y m d
  refine ⟨rfl, fun hy => ?_, fun hy hm => ?_, fun hy hm hd => ?_, fun hy hm hd => ?_⟩
  · simp only [exec, execDatePack, if_pos (show y.toNat < 2000 ∨ 2127 < y.toNat by omega)]
    rfl
  · simp only [exec, execDatePack, if_neg (not_out_of_range hy), if_pos (show m.toNat < 1 ∨ 12 < m.toNat by omega)]
    rfl
  · simp only [exec, execDatePack, if_neg (not_out_of_range hy), if_neg (not_out_of_range hm),
      if_pos (show d.toNat < 1 ∨ 31 < d.toNat by omega)]
    rfl
  · rw [← datePack_toNat hy hm.2 hd.2, BitVec.ofNat_toNat, BitVec.setWidth_eq]
    simp only [exec, execDatePack, if_neg (not_out_of_range hy), if_neg (not_out_of_range hm),
      if_neg (not_out_of_range hd)]
    rfl

/-- A field of a packed date, as the number of its bits (R171). -/
theorem extract_eq_ofNat (v : Word32) (start len : Nat) (h : len < 32) :
    ((v.extractLsb' start len).setWidth 32 : Word32) = BitVec.ofNat 32 (v.toNat / 2 ^ start % 2 ^ len) := by
  rw [← extract_toNat v start len h, BitVec.ofNat_toNat, BitVec.setWidth_eq]

/-- DATE.UNPACK on the numbers of the three fields of a 16-bit value (R173). -/
theorem exec_dateUnpack_of_lt {v : Word32} (h : v.toNat < 2 ^ 16) (s : State) :
    exec (.dateUnpack v) s = .next (answered s
      (if v.toNat / 32 % 16 < 1 ∨ 12 < v.toNat / 32 % 16 then raiseDomain 2
        else if v.toNat % 32 < 1 then raiseDomain 3
        else okay (r0 := some (BitVec.ofNat 32 (2000 + v.toNat / 512)))
          (r1 := some (BitVec.ofNat 32 (v.toNat / 32 % 16))) (r2 := some (BitVec.ofNat 32 (v.toNat % 32))))) := by
  have hday : ((v.extractLsb' 0 5).setWidth 32 : Word32) = BitVec.ofNat 32 (v.toNat % 32) := by
    simpa using extract_eq_ofNat v 0 5 (by decide)
  have hmonth := extract_eq_ofNat v 5 4 (by decide)
  have hyear : v.toNat / 2 ^ 9 % 2 ^ 7 = v.toNat / 512 := by omega
  have hdayFits : v.toNat % 32 % 2 ^ 32 = v.toNat % 32 := by omega
  have hmonthFits : v.toNat / 2 ^ 5 % 2 ^ 4 % 2 ^ 32 = v.toNat / 2 ^ 5 % 2 ^ 4 := by omega
  simp only [exec, execDateUnpack, if_neg (Nat.not_le.2 h), hday, hmonth, extract_eq_ofNat v 9 7 (by decide), hyear,
    BitVec.toNat_ofNat, hdayFits, hmonthFits, BitVec.ofNat_add]
  rfl

/-- Settles O49: the range of the value, then the month and the day (`exec_dateUnpack_of_lt`). -/
theorem dateUnpackResult : Obligations.DateUnpackResult := by
  intro s v
  refine ⟨rfl, fun h => ?_, fun h hm => ?_, fun h hm hd => ?_, fun h hm hd => ?_⟩
  · simp only [exec, execDateUnpack, if_pos h]
    rfl
  · rw [exec_dateUnpack_of_lt h, if_pos (by omega)]
    rfl
  · rw [exec_dateUnpack_of_lt h, if_neg (by omega), if_pos (by omega)]
    rfl
  · rw [exec_dateUnpack_of_lt h, if_neg (by omega), if_neg (by omega)]
    rfl

/-- Settles O50: the two ranges in their order, then the product and the sum, which do not wrap. -/
theorem timePackResult : Obligations.TimePackResult := by
  intro s h m
  refine ⟨rfl, fun hh => ?_, fun hh hm => ?_, fun hh hm => ?_⟩
  · simp only [exec, execTimePack, if_pos hh]
    rfl
  · simp only [exec, execTimePack, if_neg (Nat.not_lt.2 hh), if_pos hm]
    rfl
  · simp only [exec, execTimePack, if_neg (Nat.not_lt.2 hh), if_neg (Nat.not_lt.2 hm), BitVec.ofNat_add,
      BitVec.ofNat_mul, BitVec.ofNat_toNat, BitVec.setWidth_eq]
    rfl

/-- Settles O51: the range of the value, then the quotient and the remainder by 100. -/
theorem timeUnpackResult : Obligations.TimeUnpackResult := by
  intro s v
  refine ⟨rfl, fun hv => ?_, fun hv hh => ?_, fun hv hm => ?_, fun h m hv hh hm => ?_⟩
  · simp only [exec, execTimeUnpack, if_pos hv]
    rfl
  · simp only [exec, execTimeUnpack, if_neg (Nat.not_le.2 hv), if_pos (show 23 < v.toNat / 100 by omega)]
    rfl
  · simp only [exec, execTimeUnpack, if_neg (show ¬ 2 ^ 16 ≤ v.toNat by omega),
      if_neg (show ¬ 23 < v.toNat / 100 by omega), if_pos (show 59 < v.toNat % 100 by omega)]
    rfl
  · have hquot : v.toNat / 100 = h := by omega
    have hrem : v.toNat % 100 = m := by omega
    simp only [exec, execTimeUnpack, if_neg (show ¬ 2 ^ 16 ≤ v.toNat by omega), hquot, hrem,
      if_neg (Nat.not_lt.2 hh), if_neg (Nat.not_lt.2 hm)]
    rfl

/-! ## Round trips (R178) -/

/-- An instruction has one response: two results of it agree. -/
theorem response_unique {i : Instr} {s : State} {p r : Response} (hp : exec i s = .next (answered s p))
    (hr : exec i s = .next (answered s r)) : p = r :=
  answered_inj (Host.Outcome.next.inj (hp.symm.trans hr))

theorem ofNat_eq_of_toNat_eq {n : Nat} {x : Word32} (h : n = x.toNat) : BitVec.ofNat 32 n = x := by
  rw [h, BitVec.ofNat_toNat, BitVec.setWidth_eq]

/-- DATE.UNPACK answers with a success only for a value whose three fields are a date (R173). -/
theorem exec_dateUnpack_okay {s : State} {v y m d : Word32}
    (h : exec (.dateUnpack v) s = .next (answered s { status := 0x00, r0 := some y, r1 := some m, r2 := some d })) :
    v.toNat < 2 ^ 16 ∧ (1 ≤ v.toNat / 32 % 16 ∧ v.toNat / 32 % 16 ≤ 12) ∧ v.toNat % 32 ≠ 0 ∧
      y.toNat = 2000 + v.toNat / 512 ∧ m.toNat = v.toNat / 32 % 16 ∧ d.toNat = v.toNat % 32 := by
  obtain ⟨-, hrange, hmonth, hday, hokay⟩ := dateUnpackResult s v
  by_cases hv : 2 ^ 16 ≤ v.toNat
  · simpa using response_unique (hrange hv) h
  by_cases hm : 1 ≤ v.toNat / 32 % 16 ∧ v.toNat / 32 % 16 ≤ 12
  · by_cases hd : v.toNat % 32 = 0
    · simpa using response_unique (hday (by omega) hm hd) h
    · have hr := response_unique (hokay (by omega) hm hd) h
      simp only [Response.mk.injEq, Option.some.injEq, true_and, and_true] at hr
      obtain ⟨rfl, rfl, rfl⟩ := hr
      simp only [BitVec.toNat_ofNat]
      omega
  · simpa using response_unique (hmonth (by omega) hm) h

/-- TIME.UNPACK answers with a success only for a value made of an hour and a minute (R175). -/
theorem exec_timeUnpack_okay {s : State} {v h m : Word32}
    (hu : exec (.timeUnpack v) s = .next (answered s { status := 0x00, r0 := some h, r1 := some m })) :
    h.toNat ≤ 23 ∧ m.toNat ≤ 59 ∧ v.toNat = h.toNat * 100 + m.toNat := by
  obtain ⟨-, hrange, hhour, hminute, hokay⟩ := timeUnpackResult s v
  by_cases hv : 2 ^ 16 ≤ v.toNat
  · simpa using response_unique (hrange hv) hu
  by_cases hh : 2400 ≤ v.toNat
  · simpa using response_unique (hhour (by omega) hh) hu
  by_cases hm : 60 ≤ v.toNat % 100
  · simpa using response_unique (hminute (by omega) hm) hu
  · have hr := response_unique (hokay (v.toNat / 100) (v.toNat % 100) (by omega) (by omega) (by omega)) hu
    simp only [Response.mk.injEq, Option.some.injEq, true_and, and_true] at hr
    obtain ⟨rfl, rfl⟩ := hr
    simp only [BitVec.toNat_ofNat]
    omega

/-- Unpacking a packed date gives the date back (R178). -/
theorem date_unpack_pack (s : State) {y m d : Word32} (hy : 2000 ≤ y.toNat ∧ y.toNat ≤ 2127)
    (hm : 1 ≤ m.toNat ∧ m.toNat ≤ 12) (hd : 1 ≤ d.toNat ∧ d.toNat ≤ 31) :
    ∃ v, exec (.datePack y m d) s = .next (answered s { status := 0x00, r0 := some v }) ∧
      exec (.dateUnpack v) s = .next (answered s { status := 0x00, r0 := some y, r1 := some m, r2 := some d }) := by
  obtain ⟨-, -, -, -, hpack⟩ := datePackResult s y m d
  refine ⟨_, hpack hy hm hd, ?_⟩
  generalize hv : BitVec.ofNat 32 ((y.toNat - 2000) * 512 + m.toNat * 32 + d.toNat) = v
  have hvNat : v.toNat = (y.toNat - 2000) * 512 + m.toNat * 32 + d.toNat := by
    rw [← hv, BitVec.toNat_ofNat]
    omega
  obtain ⟨-, -, -, -, hunpack⟩ := dateUnpackResult s v
  rw [hunpack (by omega) (by omega) (by omega), ofNat_eq_of_toNat_eq (x := y) (by omega),
    ofNat_eq_of_toNat_eq (x := m) (by omega), ofNat_eq_of_toNat_eq (x := d) (by omega)]

/-- Unpacking a packed time gives the time back (R178). -/
theorem time_unpack_pack (s : State) {h m : Word32} (hh : h.toNat ≤ 23) (hm : m.toNat ≤ 59) :
    ∃ v, exec (.timePack h m) s = .next (answered s { status := 0x00, r0 := some v }) ∧
      exec (.timeUnpack v) s = .next (answered s { status := 0x00, r0 := some h, r1 := some m }) := by
  obtain ⟨-, -, -, hpack⟩ := timePackResult s h m
  refine ⟨_, hpack hh hm, ?_⟩
  obtain ⟨-, -, -, -, hunpack⟩ := timeUnpackResult s (BitVec.ofNat 32 (h.toNat * 100 + m.toNat))
  rw [hunpack h.toNat m.toNat (by rw [BitVec.toNat_ofNat]; omega) hh hm, ofNat_eq_of_toNat_eq rfl,
    ofNat_eq_of_toNat_eq rfl]

/-- Settles O52: a value that unpacks is the sum its fields pack to, and the sum of a packed date or time has the fields
it was made of. -/
theorem packUnpackRoundTrips : Obligations.PackUnpackRoundTrips := by
  intro s
  refine ⟨fun y m d => date_unpack_pack s, fun v y m d hu => ?_, fun h m => time_unpack_pack s, fun v h m hu => ?_⟩
  · obtain ⟨hv, hmonth, hday, hy, hm, hd⟩ := exec_dateUnpack_okay hu
    obtain ⟨-, -, -, -, hpack⟩ := datePackResult s y m d
    rw [hpack (by omega) (by omega) (by omega), ofNat_eq_of_toNat_eq (x := v) (by omega)]
  · obtain ⟨hh, hm, hv⟩ := exec_timeUnpack_okay hu
    obtain ⟨-, -, -, hpack⟩ := timePackResult s h m
    rw [hpack hh hm, ofNat_eq_of_toNat_eq hv.symm]

end Sys2Proof.Proofs
end

section
/-! PROOFS of the family 60_exceptions.md: the errors each operation may raise (R200). -/

namespace Sys2Proof.Proofs

open Sys2Proof.Machine Sys2Proof.Safety Sys2Proof.Laws

/-- The response is a success or an error that the column "raised by" of R200 gives the operation. -/
def ListedFor (i : Instr) (r : Response) : Prop :=
  r.status = 0x00 ∨ r.status ∈ mayRaise i

/-! ## Each way a meaning builds a response -/

@[simp] theorem listedFor_okay (i : Instr) (r0 r1 r2 : Option Word32) (rq : Option Rat) (dout : Option Bytes)
    (record : Option Loop2Record) : ListedFor i (okay r0 r1 r2 rq dout record) := .inl rfl

/-- An error is listed exactly when its status is. -/
theorem listedFor_raise {i : Instr} {status : Byte} {r0 r1 r2 : Option Word32} (h : status ≠ 0x00) :
    ListedFor i (raise status r0 r1 r2) ↔ status ∈ mayRaise i := or_iff_right h

@[simp] theorem listedFor_raiseParamsUnexpected (i : Instr) (id : Byte) :
    ListedFor i (raiseParamsUnexpected id) ↔ 0x01 ∈ mayRaise i := listedFor_raise (by decide)

@[simp] theorem listedFor_raiseParamsMissing (i : Instr) (id : Byte) :
    ListedFor i (raiseParamsMissing id) ↔ 0x02 ∈ mayRaise i := listedFor_raise (by decide)

@[simp] theorem listedFor_raiseHexOdd (i : Instr) (len : Nat) :
    ListedFor i (raiseHexOdd len) ↔ 0x03 ∈ mayRaise i := listedFor_raise (by decide)

@[simp] theorem listedFor_raiseHexChar (i : Instr) (index : Nat) (c : Byte) :
    ListedFor i (raiseHexChar index c) ↔ 0x04 ∈ mayRaise i := listedFor_raise (by decide)

@[simp] theorem listedFor_raiseText (i : Instr) (index : Nat) (c : CodePoint) :
    ListedFor i (raiseText index c) ↔ 0x05 ∈ mayRaise i := listedFor_raise (by decide)

@[simp] theorem listedFor_raiseBadLength (i : Instr) (len : Nat) :
    ListedFor i (raiseBadLength len) ↔ 0x10 ∈ mayRaise i := listedFor_raise (by decide)

@[simp] theorem listedFor_raiseFixed (i : Instr) (off : Nat) (expected actual : Word16) :
    ListedFor i (raiseFixed off expected actual) ↔ 0x11 ∈ mayRaise i := listedFor_raise (by decide)

@[simp] theorem listedFor_raiseDomain (i : Instr) (field : Word32) :
    ListedFor i (raiseDomain field) ↔ 0x20 ∈ mayRaise i := listedFor_raise (by decide)

@[simp] theorem listedFor_raiseBadId (i : Instr) (id : Byte) :
    ListedFor i (raiseBadId id) ↔ 0x21 ∈ mayRaise i := listedFor_raise (by decide)

@[simp] theorem listedFor_raiseOperand (i : Instr) (operand : Word32) :
    ListedFor i (raiseOperand operand) ↔ 0x22 ∈ mayRaise i := listedFor_raise (by decide)

theorem listedFor_ite {i : Instr} {p : Prop} [Decidable p] {a b : Response} (ha : ListedFor i a)
    (hb : ListedFor i b) : ListedFor i (if p then a else b) := by
  split <;> assumption

/-! ## The buffer bound (20_memory.md R41) -/

/-- R200 lists `E_OPERAND` under every operation whose buffer is bounded. -/
theorem operand_mem_mayRaise {i : Instr} {n : Nat} (h : boundedLength i = some n) : 0x22 ∈ mayRaise i := by
  cases i <;> cases h
  all_goals simp [mayRaise]

theorem listedFor_bounded {α : Type} {i : Instr} {cfg : Config} {body : Response} (buf : List α)
    (hop : 0x22 ∈ mayRaise i) (h : ListedFor i body) : ListedFor i (bounded cfg buf body) := by
  rcases bounded_cases cfg buf body with e | e <;> rw [e]
  · exact h
  · exact (listedFor_raiseOperand i 0).2 hop

/-! ## Every meaning -/

/-- Every branch of every meaning is a success or one of the operation's own errors. -/
theorem exec_listedFor (i : Instr) (s : State) : ∃ r, exec i s = .next (answered s r) ∧ ListedFor i r := by
  cases i with
  | crcStep acc byte => exact ⟨_, rfl, by split_ifs <;> simp [mayRaise]⟩
  | crcCompute seed buf =>
    exact ⟨_, rfl, listedFor_bounded buf (operand_mem_mayRaise rfl) (by split_ifs <;> simp [mayRaise])⟩
  | crcVerify buf => exact ⟨_, rfl, listedFor_bounded buf (operand_mem_mayRaise rfl) (by simp)⟩
  | crcAppend buf => exact ⟨_, rfl, listedFor_bounded buf (operand_mem_mayRaise rfl) (by simp)⟩
  | crcTable index => exact ⟨_, rfl, by split_ifs <;> simp [mayRaise]⟩
  | frmDecode num den buf =>
    refine ⟨_, rfl, listedFor_ite (by simp [mayRaise]) (listedFor_bounded buf (by simp [mayRaise])
      (listedFor_ite (by simp [mayRaise]) ?_))⟩
    split <;> simp [mayRaise]
  | fldExtract fmt offset buf =>
    exact ⟨_, rfl, listedFor_bounded buf (operand_mem_mayRaise rfl) (by split_ifs <;> simp [mayRaise])⟩
  | fldScale kind raw => exact ⟨_, rfl, by simp⟩
  | fldTrend raw =>
    refine ⟨_, rfl, listedFor_ite (by simp [mayRaise]) ?_⟩
    split <;> simp
  | fldWinddir raw =>
    refine ⟨_, rfl, listedFor_ite (by simp [mayRaise]) ?_⟩
    split <;> simp
  | fldRain clicks num den => exact ⟨_, rfl, by split_ifs <;> simp [mayRaise]⟩
  | encCmd id params =>
    refine ⟨_, rfl, listedFor_bounded params (operand_mem_mayRaise rfl) ?_⟩
    split
    · simp [mayRaise]
    · split_ifs <;> simp [mayRaise]
  | cmdInfo id =>
    refine ⟨_, rfl, ?_⟩
    split <;> simp [mayRaise]
  | encHex buf =>
    refine ⟨_, rfl, listedFor_bounded buf (operand_mem_mayRaise rfl) (listedFor_ite (by simp [mayRaise]) ?_)⟩
    split <;> simp [mayRaise]
  | encText text =>
    refine ⟨_, rfl, listedFor_bounded text (operand_mem_mayRaise rfl) ?_⟩
    split <;> simp [mayRaise]
  | datePack year month day => exact ⟨_, rfl, by split_ifs <;> simp [mayRaise]⟩
  | dateUnpack packed => exact ⟨_, rfl, by dsimp only; split_ifs <;> simp [mayRaise]⟩
  | timePack hour minute => exact ⟨_, rfl, by split_ifs <;> simp [mayRaise]⟩
  | timeUnpack packed => exact ⟨_, rfl, by split_ifs <;> simp [mayRaise]⟩
  | rspMatch id buf =>
    refine ⟨_, rfl, listedFor_bounded buf (operand_mem_mayRaise rfl) ?_⟩
    split <;> simp [mayRaise]
  | rspInfo id =>
    refine ⟨_, rfl, ?_⟩
    split <;> simp [mayRaise]

/-- Settles O13: the response of an instruction is the one `exec_listedFor` speaks of. -/
theorem errorsRaisedOnlyWhereListed : Obligations.ErrorsRaisedOnlyWhereListed := by
  intro i s r h
  obtain ⟨p, hp, hlisted⟩ := exec_listedFor i s
  obtain rfl := response_unique hp h
  exact hlisted

end Sys2Proof.Proofs
end

section
/-! PROOFS of the family 70_reset_and_hazards.md: the invariant of a run (R234), requests answered in order (R235), a
buffer fed in two pieces (R238), and a reset during a request (R230). -/

namespace Sys2Proof.Proofs

open Sys2Proof.Machine Sys2Proof.Safety Sys2Proof.Laws

/-! ## The invariant of a run (R234, 60_exceptions.md R200, R201) -/

/-- The invariant reads only the parameters and the responses. -/
theorem inv_of_cfg_eq_of_responses_eq {s t : State} (h : Inv s) (hcfg : t.cfg = s.cfg)
    (hresp : t.responses = s.responses) : Inv t where
  cfg := hcfg ▸ h.cfg
  responses := by rw [hcfg, hresp]; exact h.responses

/-- Delivering a legal response keeps the invariant. -/
theorem inv_answered {s : State} {p : Response} (h : Inv s) (hp : LegalResponse s.cfg p) : Inv (answered s p) where
  cfg := h.cfg
  responses := by
    intro r hr
    rcases List.mem_append.1 hr with hold | hnew
    · exact h.responses r hold
    · obtain rfl := List.mem_singleton.1 hnew
      exact hp

/-- Settles O2: the host's turn and a reset deliver nothing; `E_ILLEGAL` is legal, and so is what an instruction
delivers (`everyInstructionAnswers`). -/
theorem invariantKeptByEveryStep : Obligations.InvariantKeptByEveryStep := by
  intro s t hinv ht
  rcases step_cases s with ⟨_, hs⟩ | ⟨_, _, _, hs⟩ | ⟨_, cause, _, _, _, hs⟩ | ⟨_, i, _, _, _, hs⟩
  · cases hs.symm.trans ht
    exact inv_of_cfg_eq_of_responses_eq hinv (hostTurn_cfg s) (hostTurn_responses s)
  · cases hs.symm.trans ht
    exact inv_of_cfg_eq_of_responses_eq hinv (applyReset_cfg s) (applyReset_responses s)
  · cases hs.symm.trans ht
    exact inv_answered hinv (legalResponse_raiseIllegal s.cfg cause)
  · obtain ⟨p, hp, hlegal⟩ := everyInstructionAnswers i s
    cases (hs.trans hp).symm.trans ht
    exact inv_answered hinv hlegal

/-! ## Requests answered in order (R235, 20_memory.md R52, R56) -/

/-- A host that issues a list of requests asserts no reset. -/
theorem head?_issueAll_ne_reset (requests : List Request) : (issueAll requests).head? ≠ some .reset := by
  cases requests <;> simp [issueAll]

/-- The two steps of one request: the idle block accepts it, then answers it as it would alone. -/
theorem run_issueAll_cons {s : State} {r : Request} {rest : List Request} (hidle : s.inFlight = none)
    (hhost : s.host = issueAll (r :: rest)) :
    ∃ p, responseAlone s.cfg r = some p ∧ ∀ k,
      Host.Core.run Sys2Proof.core (k + 2) s =
        Host.Core.run Sys2Proof.core k { s with host := issueAll rest, responses := s.responses ++ [p] } := by
  have haccept : step s = .next { s with inFlight := some r, host := issueAll rest } := by
    rw [step_of_idle hidle, hostTurn_of_issue (rest := issueAll rest) hhost]
  obtain ⟨p, halone, hanswer⟩ := step_answers_responseAlone
    (s := { s with inFlight := some r, host := issueAll rest }) rfl (head?_issueAll_ne_reset rest)
  refine ⟨p, halone, fun k => ?_⟩
  rw [run_succ_of_next (k + 1) haccept, run_succ_of_next k hanswer, answered, hidle]

/-- Settles O9, by induction on the requests: each takes two steps, which leave an idle block whose host has the rest
to issue. -/
theorem requestsAnsweredInOrder : Obligations.RequestsAnsweredInOrder := by
  intro s requests
  induction requests generalizing s with
  | nil =>
    intro _ hhost
    have hnil : s.host = [] := hhost
    exact ⟨[], rfl, by rw [List.append_nil, ← hnil]; rfl⟩
  | cons r rest ih =>
    intro hidle hhost
    obtain ⟨p, hp, hrun⟩ := run_issueAll_cons hidle hhost
    obtain ⟨ps, hps, hrest⟩ := ih { s with host := issueAll rest, responses := s.responses ++ [p] } hidle rfl
    refine ⟨p :: ps, by rw [List.map_cons, List.map_cons, hp, hps], ?_⟩
    rw [List.length_cons, Nat.mul_succ, hrun, hrest, List.append_assoc, List.singleton_append]

/-! ## A buffer in two pieces (R238, 41_checksum.md R101) -/

/-- A checksum is a seed in range for a second request. -/
theorem toNat_setWidth_word16_lt (c : Word16) : (c.setWidth 32 : Word32).toNat < 2 ^ 16 := by
  rw [BitVec.toNat_setWidth_of_le (by decide)]
  exact c.isLt

/-- Settles O21: the first result is the accumulator from which the loop goes on over `b` (`crcCompute_append`). -/
theorem crcOfSplitBuffer : Obligations.CrcOfSplitBuffer := by
  intro s seed a b hseed hlen
  have hab : a.length + b.length ≤ s.cfg.maxDin := List.length_append ▸ hlen
  have hback (c : Word16) : (c.setWidth 32 : Word32).setWidth 16 = c := by simp
  refine ⟨_, _, exec_crcCompute_of_le (by omega) hseed,
    exec_crcCompute_of_le (by omega) (toNat_setWidth_word16_lt _), ?_⟩
  rw [exec_crcCompute_of_le hlen hseed, hback, crcCompute_append]

/-! ## Reset (R230, 10_state.md R33) -/

theorem hostTurn_of_reset {s : State} {rest : List HostEvent} (h : s.host = .reset :: rest) :
    hostTurn s = applyReset s := by
  simp only [hostTurn, h]

theorem applyReset_of_cons {s : State} {e : HostEvent} {rest : List HostEvent} (h : s.host = e :: rest) :
    applyReset s = { s with inFlight := none, host := rest } := by
  simp only [applyReset, h, List.tail_cons]

/-- A reset that is the host's next event lands, whether or not a request is in flight. -/
theorem step_of_reset {s : State} {rest : List HostEvent} (h : s.host = .reset :: rest) :
    step s = .next (applyReset s) := by
  have hhead : s.host.head? = some .reset := by rw [h, List.head?_cons]
  rcases step_next s with ⟨_, hs⟩ | ⟨_, _, _, hs⟩ | ⟨_, _, _, hno, _⟩
  · rw [hs, hostTurn_of_reset h]
  · exact hs
  · exact absurd hhead hno

/-- Settles O10: the reset lands, and the block it leaves idle accepts the next request. -/
theorem resetAbortsUnfinishedRequest : Obligations.ResetAbortsUnfinishedRequest := by
  intro s rest h
  refine ⟨by rw [step_of_reset h, applyReset_of_cons h], ?_⟩
  rintro q after rfl
  rw [step_of_idle rfl, hostTurn_of_issue rfl]

end Sys2Proof.Proofs
end
